-- ==== Sys2Proof/Word.lean ====
section
/-! DEFINITION. The byte, the register index and the one narrowing operation of the LS8 core (00_scope.md R6 to R8). -/

namespace Sys2Proof

/-- A byte: an unsigned 8-bit value (00_scope.md R7, 10_state.md R21). -/
abbrev Byte := BitVec 8

/-- The index of a general register, 0 to 7 (10_state.md R21). -/
abbrev RegIdx := Fin 8

/-- `trunc8(v)`: a natural modulo 256, as a byte (00_scope.md R8). -/
def trunc8 (v : Nat) : Byte := BitVec.ofNat 8 v

end Sys2Proof
end

