-- ==== Sys2Proof/Config.lean ====
section
/-! DEFINITION. The implementation parameters that 00_scope.md R6 fixes and that bound a range.
The parameters a reader may replace stand where a repair can reach them: the opcode bytes in `Decode.lean`, the
stack-pointer index and the reset values in `Machine/ResetValues.lean`, the pc after HLT in `Machine/Sequencer.lean`.
The spec leaves no value open (92_eei_decisions.md, Open parameters), so there is no free value here. -/

namespace Sys2Proof.Config

/-- The last memory address: the memory holds 256 bytes at addresses 0 to 255 (20_memory.md R50). -/
def lastAddress : Nat := 255

/-- The largest value of the program counter (10_state.md R25, the spec's decision D5). -/
def pcMax : Nat := 256

/-- The largest legal register operand byte (30_encoding.md R74). -/
def lastRegister : Nat := 7

end Sys2Proof.Config
end

