-- ==== Sys2Proof/Machine/ResetValues.lean ====
section
/-! DEFINITION. The stack-pointer index and the value of each register after reset (70_reset_and_hazards.md R230).
Memory, run, fault and out have their reset values in `State.reset`. -/

namespace Sys2Proof.Machine

/-- The index of the stack pointer: R7 (10_state.md R23, the spec's decision D1, log 11). -/
def spIndex : RegIdx := 7

/-- The stack pointer after reset: 0xF4 (10_state.md R24). -/
def spReset : Byte := 0xF4#8

/-- The register file after reset: zero but for the stack pointer (10_state.md R24). -/
def resetRegs : Vector Byte 8 := (Vector.replicate 8 0#8).set spIndex spReset

/-- FL after reset: every flag clear (10_state.md R30, the spec's decision D3, log 13). -/
def resetFl : Byte := 0x00#8

/-- The entry point: address 0 (10_state.md R25, 70_reset_and_hazards.md R230). -/
def resetPc : Nat := 0

end Sys2Proof.Machine
end

