-- ==== Sys2Proof/Machine/State.lean ====
section
/-! DEFINITION. The state of the LS8 core, whole (10_state.md R20), the reasons a step can stop, and the state after reset. -/

namespace Sys2Proof.Machine

/-- The run state (10_state.md R33). -/
inductive Run where
  | running | halted | faulted
  deriving DecidableEq, Repr

/-- The fault codes (60_exceptions.md R201). -/
inductive FaultCode where
  /-- A fetch from an address above 255. -/
  | outOfRange
  /-- An illegal opcode byte with bit 5 = 0. -/
  | decodeError
  /-- An illegal opcode byte with bit 5 = 1. -/
  | aluDecodeError
  /-- MOD with a zero divisor. -/
  | divideByZero
  /-- A register operand byte above 7. -/
  | illegalRegister
  /-- CALL whose return address is above 255. -/
  | callReturnOverflow
  deriving DecidableEq, Repr

/-- The fault record `(code, info)` (10_state.md R34). `info` is an address, an opcode byte, an operand byte or a
return address, which may be 256, so it is a natural. -/
structure FaultRecord where
  code : FaultCode
  info : Nat
  deriving DecidableEq, Repr

/-- One output event (10_state.md R35). -/
inductive OutEvent where
  /-- A byte to be shown in decimal, from PRN. -/
  | dec (v : Byte)
  /-- A byte to be shown as a character, from PRA. -/
  | chr (v : Byte)
  deriving DecidableEq, Repr

/-- Memory: the bytes that differ from the reset content 0, by rising address (log 4). -/
abbrev Memory := List Host.Cell

/-- The architectural state, one field per component of 10_state.md R20. -/
structure State where
  /-- The registers R0 to R7 (10_state.md R21). -/
  x : Vector Byte 8
  /-- The flags register FL (10_state.md R27). -/
  fl : Byte
  /-- The program counter, a natural in 0..256 (10_state.md R25, log 5). -/
  pc : Nat
  /-- The memory M (10_state.md R36). -/
  mem : Memory
  /-- The run state (10_state.md R33). -/
  run : Run
  /-- The fault record (10_state.md R34). -/
  fault : Option FaultRecord
  /-- The output events in program order (10_state.md R35). -/
  out : List OutEvent
  deriving DecidableEq, Repr

/-- Why no step is possible. The core's own faults are states (run = FAULTED), not these (log 1, log 2). -/
inductive Fault where
  /-- Raised by `step` in HALTED, where no step is enabled (40_sequencer.md R100). Safe: the model stops where the
  core does nothing. -/
  | coreHalted
  /-- Raised by `step` in FAULTED, where no step is enabled (40_sequencer.md R100). Safe: the model stops where the
  core does nothing. -/
  | coreFaulted
  deriving DecidableEq, Repr

/-- Why an instruction has no meaning. -/
inductive Refusal where
  /-- An arm of `exec` without a meaning; no arm of this model uses it. Safe: the model stops. -/
  | notModelled (mnemonic : String)
  deriving DecidableEq, Repr

/-- The state after reset, with no image loaded (70_reset_and_hazards.md R230, R231). -/
def State.reset : State where
  x := resetRegs
  fl := resetFl
  pc := resetPc
  mem := []
  run := .running
  fault := none
  out := []

end Sys2Proof.Machine
end

