-- ==== Sys2Proof/Machine/Flags.lean ====
section
/-! DEFINITION. The flags register: its bits, what CMP writes and what the conditional jumps test (10_state.md R27 to R29,
41_alu.md R125, 43_control_transfer.md R171 to R173). Bit positions are the spec's decision D2 (log 12). -/

namespace Sys2Proof.Machine

/-- `FL.E`, equal: bit 0 (10_state.md R27). -/
def flagE (fl : Byte) : Bool := fl.getLsbD 0

/-- `FL.G`, greater than: bit 1 (10_state.md R27). -/
def flagG (fl : Byte) : Bool := fl.getLsbD 1

/-- `FL.L`, less than: bit 2 (10_state.md R27). -/
def flagL (fl : Byte) : Bool := fl.getLsbD 2

/-- What CMP writes into FL for `x[a] = u` and `x[b] = v`, an unsigned comparison (41_alu.md R125). -/
def compareFlags (u v : Byte) : Byte :=
  if u.toNat < v.toNat then 0b00000100#8
  else if v.toNat < u.toNat then 0b00000010#8
  else 0b00000001#8

/-- JEQ jumps if E is 1 (43_control_transfer.md R171). -/
def condEqual (fl : Byte) : Bool := flagE fl

/-- JNE jumps if E is 0 (43_control_transfer.md R172). -/
def condNotEqual (fl : Byte) : Bool := !flagE fl

/-- JLE jumps if L or E is 1 (43_control_transfer.md R173). -/
def condLessOrEqual (fl : Byte) : Bool := flagL fl || flagE fl

end Sys2Proof.Machine
end

