-- ==== Sys2Proof/Syntax.lean ====
section
/-! DEFINITION. The instructions of the LS8 core, one constructor per row of the opcode map (30_encoding.md R76). -/

namespace Sys2Proof

/-- The 27 instructions with their operand BYTES as fetched (30_encoding.md R74, R75).
A register operand byte is legal only in 0..7, and an illegal one faults when the instruction executes, so the
syntax holds the byte and `Instr.wellFormed` says which bytes are legal (log 6). -/
inductive Instr where
  /-- NOP: no operation (R108). -/
  | nop
  /-- HLT: halt the core (R109). -/
  | hlt
  /-- RET: return from subroutine (R175). -/
  | ret
  /-- PUSH: push `x[op1]` (R153). -/
  | push (op1 : Byte)
  /-- POP: pop into `x[op1]` (R154). -/
  | pop (op1 : Byte)
  /-- PRN: output `x[op1]` as a decimal number (R155). -/
  | prn (op1 : Byte)
  /-- PRA: output `x[op1]` as a character (R156). -/
  | pra (op1 : Byte)
  /-- CALL: call the subroutine at `x[op1]` (R174). -/
  | call (op1 : Byte)
  /-- JMP: jump to `x[op1]` (R170). -/
  | jmp (op1 : Byte)
  /-- JEQ: jump to `x[op1]` if E (R171). -/
  | jeq (op1 : Byte)
  /-- JNE: jump to `x[op1]` if not E (R172). -/
  | jne (op1 : Byte)
  /-- JLE: jump to `x[op1]` if L or E (R173). -/
  | jle (op1 : Byte)
  /-- INC: increment `x[op1]` (R123). -/
  | inc (op1 : Byte)
  /-- DEC: decrement `x[op1]` (R124). -/
  | dec (op1 : Byte)
  /-- NOT: complement `x[op1]` (R129). -/
  | not (op1 : Byte)
  /-- LDI: load the immediate byte into `x[op1]` (R150). -/
  | ldi (op1 imm : Byte)
  /-- LD: load `M[x[op2]]` into `x[op1]` (R151). -/
  | ld (op1 op2 : Byte)
  /-- ST: store `x[op2]` at `M[x[op1]]` (R152). -/
  | st (op1 op2 : Byte)
  /-- ADD: add `x[op2]` to `x[op1]` (R121). -/
  | add (op1 op2 : Byte)
  /-- MUL: multiply `x[op1]` by `x[op2]`, low byte (R122). -/
  | mul (op1 op2 : Byte)
  /-- MOD: remainder of `x[op1]` by `x[op2]` (R132). -/
  | mod (op1 op2 : Byte)
  /-- CMP: compare `x[op1]` with `x[op2]` and set FL (R125). -/
  | cmp (op1 op2 : Byte)
  /-- AND: and `x[op2]` into `x[op1]` (R126). -/
  | and (op1 op2 : Byte)
  /-- OR: or `x[op2]` into `x[op1]` (R127). -/
  | or (op1 op2 : Byte)
  /-- XOR: exclusive-or `x[op2]` into `x[op1]` (R128). -/
  | xor (op1 op2 : Byte)
  /-- SHL: shift `x[op1]` left by `x[op2]` (R130). -/
  | shl (op1 op2 : Byte)
  /-- SHR: shift `x[op1]` right by `x[op2]` (R131). -/
  | shr (op1 op2 : Byte)
  deriving DecidableEq, Repr

end Sys2Proof
end

