-- ==== Sys2Proof/WellFormed.lean ====
section
/-! DEFINITION. Which instructions are well formed: every register operand byte names a register (30_encoding.md R74, R75).
An immediate may be any byte (R79). -/

namespace Sys2Proof

/-- The register operand bytes of an instruction, in operand order (30_encoding.md R75). -/
def Instr.regOperands : Instr → List Byte
  | .nop => []
  | .hlt => []
  | .ret => []
  | .push op1 => [op1]
  | .pop op1 => [op1]
  | .prn op1 => [op1]
  | .pra op1 => [op1]
  | .call op1 => [op1]
  | .jmp op1 => [op1]
  | .jeq op1 => [op1]
  | .jne op1 => [op1]
  | .jle op1 => [op1]
  | .inc op1 => [op1]
  | .dec op1 => [op1]
  | .not op1 => [op1]
  | .ldi op1 _ => [op1]
  | .ld op1 op2 => [op1, op2]
  | .st op1 op2 => [op1, op2]
  | .add op1 op2 => [op1, op2]
  | .mul op1 op2 => [op1, op2]
  | .mod op1 op2 => [op1, op2]
  | .cmp op1 op2 => [op1, op2]
  | .and op1 op2 => [op1, op2]
  | .or op1 op2 => [op1, op2]
  | .xor op1 op2 => [op1, op2]
  | .shl op1 op2 => [op1, op2]
  | .shr op1 op2 => [op1, op2]

/-- A register operand byte is legal when it is in 0..7 (30_encoding.md R74). -/
def legalRegister (op : Byte) : Bool := decide (op.toNat ≤ Config.lastRegister)

/-- An instruction is well formed when all its register operand bytes are legal (30_encoding.md R74). -/
def Instr.wellFormed (i : Instr) : Bool := i.regOperands.all legalRegister

end Sys2Proof
end

