-- ==== Sys2Proof/Decode.lean ====
section
/-! DEFINITION. The instruction encoding of 30_encoding.md: the bit fields of an opcode byte, the opcode map, the decoder
(total on any bytes, rejecting by name) and the encoder. -/

namespace Sys2Proof

/-- `n = ir[7:6]`, the operand count (30_encoding.md R71). -/
def operandCount (ir : Byte) : Nat := ir.toNat / 64

/-- `alu = ir[5]`, the ALU bit (30_encoding.md R71). -/
def aluBit (ir : Byte) : Bool := ir.getLsbD 5

/-- `setspc = ir[4]`, the sets-PC bit (30_encoding.md R71). -/
def setsPcBit (ir : Byte) : Bool := ir.getLsbD 4

/-- The identifier, bits 4:0, which overlaps the sets-PC bit. No rule reads it (30_encoding.md R71, 90_conflicts.md C1). -/
def identifier (ir : Byte) : BitVec 5 := ir.extractLsb' 0 5

/-- The rows of the opcode map (30_encoding.md R76). -/
inductive Opcode where
  | nop | hlt | ret | push | pop | prn | pra | call | jmp
  | jeq | jne | jle | inc | dec | not | ldi | ld | st
  | add | mul | mod | cmp | and | or | xor | shl | shr
  deriving DecidableEq, Repr

/-- The byte of each row of the opcode map (30_encoding.md R76; 23 of them are the spec's decision D4, log 14). -/
def Opcode.byte : Opcode → Byte
  | .nop => 0x00#8
  | .hlt => 0x01#8
  | .ret => 0x11#8
  | .push => 0x45#8
  | .pop => 0x46#8
  | .prn => 0x47#8
  | .pra => 0x48#8
  | .call => 0x50#8
  | .jmp => 0x54#8
  | .jeq => 0x55#8
  | .jne => 0x56#8
  | .jle => 0x59#8
  | .inc => 0x65#8
  | .dec => 0x66#8
  | .not => 0x69#8
  | .ldi => 0x82#8
  | .ld => 0x83#8
  | .st => 0x84#8
  | .add => 0xA0#8
  | .mul => 0xA2#8
  | .mod => 0xA4#8
  | .cmp => 0xA7#8
  | .and => 0xA8#8
  | .or => 0xAA#8
  | .xor => 0xAB#8
  | .shl => 0xAC#8
  | .shr => 0xAD#8

/-- CONTROL_DATA: the 13 control and data rows other than NOP and HLT (30_encoding.md R73, R76). -/
def controlData : List Opcode :=
  [.ret, .push, .pop, .prn, .pra, .call, .jmp, .jeq, .jne, .jle, .ldi, .ld, .st]

/-- ALU_OPS: the 12 ALU rows (30_encoding.md R73, R76). -/
def aluOps : List Opcode :=
  [.inc, .dec, .not, .add, .mul, .mod, .cmp, .and, .or, .xor, .shl, .shr]

/-- The two ways an opcode byte is illegal (30_encoding.md R73, R78). -/
inductive OpcodeError where
  /-- The byte is in no table and its ALU bit is 0. -/
  | decodeError
  /-- The ALU bit is 1 and the byte is not one of ALU_OPS. -/
  | aluDecodeError
  deriving DecidableEq, Repr

/-- `decode(ir)`: the one outcome of an opcode byte (30_encoding.md R73). NoOp and Halt are the rows NOP and HLT. -/
def decodeOpcode (ir : Byte) : Except OpcodeError Opcode :=
  if ir = 0x00#8 then .ok .nop
  else if ir = 0x01#8 then .ok .hlt
  else
    match controlData.find? (fun o => o.byte == ir) with
    | some o => .ok o
    | none =>
      if aluBit ir then
        match aluOps.find? (fun o => o.byte == ir) with
        | some o => .ok o
        | none => .error .aluDecodeError
      else .error .decodeError

/-- The instruction of a row with its operand bytes; a row without an operand ignores the byte (30_encoding.md R75). -/
def Opcode.instr (o : Opcode) (op1 op2 : Byte) : Instr :=
  match o with
  | .nop => .nop
  | .hlt => .hlt
  | .ret => .ret
  | .push => .push op1
  | .pop => .pop op1
  | .prn => .prn op1
  | .pra => .pra op1
  | .call => .call op1
  | .jmp => .jmp op1
  | .jeq => .jeq op1
  | .jne => .jne op1
  | .jle => .jle op1
  | .inc => .inc op1
  | .dec => .dec op1
  | .not => .not op1
  | .ldi => .ldi op1 op2
  | .ld => .ld op1 op2
  | .st => .st op1 op2
  | .add => .add op1 op2
  | .mul => .mul op1 op2
  | .mod => .mod op1 op2
  | .cmp => .cmp op1 op2
  | .and => .and op1 op2
  | .or => .or op1 op2
  | .xor => .xor op1 op2
  | .shl => .shl op1 op2
  | .shr => .shr op1 op2

/-- Why a byte string is no instruction. -/
inductive DecodeReject where
  /-- There is no opcode byte. -/
  | empty
  /-- The opcode byte `ir` is illegal (30_encoding.md R78). -/
  | illegal (e : OpcodeError) (ir : Byte)
  /-- Fewer operand bytes follow the opcode byte `ir` than its operand count asks for (30_encoding.md R70). -/
  | truncated (ir : Byte)
  deriving DecidableEq, Repr

/-- The instruction at the head of a byte string and the bytes after it: the opcode byte, then as many operand bytes
as its bits 7:6 say (30_encoding.md R70, R73, R80). Total on any bytes. -/
def decode : List Byte → Except DecodeReject (Instr × List Byte)
  | [] => .error .empty
  | ir :: rest =>
    match decodeOpcode ir with
    | .error e => .error (.illegal e ir)
    | .ok o =>
      match operandCount ir, rest with
      | 0, rest => .ok (o.instr 0 0, rest)
      | 1, op1 :: rest => .ok (o.instr op1 0, rest)
      | 2, op1 :: op2 :: rest => .ok (o.instr op1 op2, rest)
      | _, _ => .error (.truncated ir)

/-- The row of an instruction and its operand bytes in order (30_encoding.md R75, R76). -/
def Instr.parts : Instr → Opcode × List Byte
  | .nop => (.nop, [])
  | .hlt => (.hlt, [])
  | .ret => (.ret, [])
  | .push op1 => (.push, [op1])
  | .pop op1 => (.pop, [op1])
  | .prn op1 => (.prn, [op1])
  | .pra op1 => (.pra, [op1])
  | .call op1 => (.call, [op1])
  | .jmp op1 => (.jmp, [op1])
  | .jeq op1 => (.jeq, [op1])
  | .jne op1 => (.jne, [op1])
  | .jle op1 => (.jle, [op1])
  | .inc op1 => (.inc, [op1])
  | .dec op1 => (.dec, [op1])
  | .not op1 => (.not, [op1])
  | .ldi op1 imm => (.ldi, [op1, imm])
  | .ld op1 op2 => (.ld, [op1, op2])
  | .st op1 op2 => (.st, [op1, op2])
  | .add op1 op2 => (.add, [op1, op2])
  | .mul op1 op2 => (.mul, [op1, op2])
  | .mod op1 op2 => (.mod, [op1, op2])
  | .cmp op1 op2 => (.cmp, [op1, op2])
  | .and op1 op2 => (.and, [op1, op2])
  | .or op1 op2 => (.or, [op1, op2])
  | .xor op1 op2 => (.xor, [op1, op2])
  | .shl op1 op2 => (.shl, [op1, op2])
  | .shr op1 op2 => (.shr, [op1, op2])

/-- The opcode byte of an instruction (30_encoding.md R76). -/
def Instr.opcodeByte (i : Instr) : Byte := i.parts.1.byte

/-- The bytes of an instruction at ascending addresses: the opcode byte, then its operand bytes (30_encoding.md R70). -/
def encode (i : Instr) : List Byte := i.opcodeByte :: i.parts.2

/-- The three bytes of a table word, first byte in bits 7:0; every bit from `nbits` up is 0. Three bytes are the longest
instruction (30_encoding.md R70). -/
def tableBytes (nbits w : Nat) : List Byte :=
  let v := w % 2 ^ nbits
  [trunc8 v, trunc8 (v / 2 ^ 8), trunc8 (v / 2 ^ 16)]

/-- The instruction the decoder reads from an instruction numbered as spec/opcode_table.json numbers its bits. -/
def decodeTableWord (nbits w : Nat) : Option Instr :=
  match decode (tableBytes nbits w) with
  | .ok (i, _) => some i
  | .error _ => none

end Sys2Proof
end

