-- ==== Sys2Proof/Machine/Operands.lean ====
section
/-! DEFINITION. The operand forms (30_encoding.md R74): a register operand with its legality check. An immediate operand is
the byte itself and needs no operation. -/

namespace Sys2Proof.Machine

/-- `reg(op)`: the register an operand byte names, or the IllegalRegister fault (30_encoding.md R74, the spec's
decision D10, log 19). -/
def reg (op : Byte) : Except FaultRecord RegIdx :=
  if h : op.toNat < 8 then .ok ⟨op.toNat, h⟩ else .error ⟨.illegalRegister, op.toNat⟩

/-- The operand byte that names register `r` (30_encoding.md R74). -/
def regByte (r : RegIdx) : Byte := BitVec.ofNat 8 r.val

end Sys2Proof.Machine
end

