-- ==== Sys2Proof/Machine/Memory.lean ====
section
/-! DEFINITION. Memory as a list of cells in one canonical form: addresses strictly rising and below 256, no listed byte
equal to the reset content 0 (10_state.md R36, 20_memory.md R50, R58; log 4). -/

namespace Sys2Proof.Machine

/-- What an unlisted address reads as: memory is zero at reset (20_memory.md R58). -/
def Memory.resetByte : Byte := 0x00#8

/-- `M[a]`: the byte at address `a`. -/
def Memory.read : Memory → Nat → Byte
  | [], _ => Memory.resetByte
  | (k, v) :: rest, a => if k = a then v else Memory.read rest a

/-- The memory without a cell for address `a`. -/
def Memory.dropCell (m : Memory) (a : Nat) : Memory := m.filter (fun c => c.1 != a)

/-- The memory with a cell for `a` put before the first higher address. -/
def Memory.putCell (a : Nat) (v : Byte) : Memory → Memory
  | [] => [(a, v)]
  | (k, w) :: rest => if a < k then (a, v) :: (k, w) :: rest else (k, w) :: Memory.putCell a v rest

/-- `M[a] <- v`. Writing what an unlisted address reads as removes the cell. -/
def Memory.write (m : Memory) (a : Nat) (v : Byte) : Memory :=
  if v = Memory.resetByte then m.dropCell a else Memory.putCell a v (m.dropCell a)

/-- The cells from address `lo` up are in canonical form. -/
def Memory.wfFrom (lo : Nat) : Memory → Bool
  | [] => true
  | (k, v) :: rest =>
    decide (lo ≤ k) && decide (k ≤ Config.lastAddress) && decide (v ≠ Memory.resetByte) && Memory.wfFrom (k + 1) rest

/-- The canonical form: equal memories are equal data. -/
def Memory.wf (m : Memory) : Bool := Memory.wfFrom 0 m

end Sys2Proof.Machine
end

