-- ==== Sys2Proof/Machine/Ops.lean ====
section
/-! DEFINITION. The shared operations of a step: registers, the memory interface, the stack pointer, the output stream,
raising a fault, advancing pc, and completing an instruction. -/

namespace Sys2Proof.Machine

/-- `x[i]` (00_scope.md R8). -/
def State.reg (s : State) (i : RegIdx) : Byte := s.x[i]

/-- `x[i] <- v` (00_scope.md R8). No register is hardwired (10_state.md R21). -/
def State.setReg (s : State) (i : RegIdx) (v : Byte) : State := { s with x := s.x.set i v }

/-- `SP`, another name for `x[7]` (10_state.md R23). -/
def State.sp (s : State) : Byte := s.reg spIndex

/-- `MemRead(a, 1)`: an address above 255 fails and is never wrapped (20_memory.md R51). -/
def memRead (a : Nat) (s : State) : Except FaultRecord Byte :=
  if Config.lastAddress < a then .error ⟨.outOfRange, a⟩ else .ok (s.mem.read a)

/-- `MemWrite(a, 1, v)`: an address above 255 fails and is never wrapped (20_memory.md R51). -/
def memWrite (a : Nat) (v : Byte) (s : State) : Except FaultRecord State :=
  if Config.lastAddress < a then .error ⟨.outOfRange, a⟩ else .ok { s with mem := s.mem.write a v }

/-- `SP <- trunc8(SP - 1)`, modulo 256 (42_data_movement.md R158, the spec's decision D11, log 20). -/
def State.decSp (s : State) : State := s.setReg spIndex (trunc8 (s.sp.toNat + 255))

/-- `SP <- trunc8(SP + 1)`, modulo 256 (42_data_movement.md R158, the spec's decision D11, log 20). -/
def State.incSp (s : State) : State := s.setReg spIndex (trunc8 (s.sp.toNat + 1))

/-- The address a push stores to: SP after the decrement (20_memory.md R52). -/
def pushAddress (s : State) : Nat := s.decSp.sp.toNat

/-- Push: SP is decremented, then a byte is stored at SP. The byte is read from the state after the decrement
(42_data_movement.md R153, R158, the spec's decision D16, log 24). -/
def push (v : State → Byte) (s : State) : Except FaultRecord State :=
  memWrite (pushAddress s) (v s.decSp) s.decSp

/-- `Emit(kind, v)`: append one output event (10_state.md R35). -/
def State.emit (s : State) (e : OutEvent) : State := { s with out := s.out ++ [e] }

/-- `raise Fault(code, info)`: enter FAULTED and record the fault; nothing else changes (60_exceptions.md R200, R204). -/
def State.raiseFault (s : State) (f : FaultRecord) : State := { s with run := .faulted, fault := some f }

/-- The number of a fault code (60_exceptions.md R201, the spec's decision D8, log 17). -/
def FaultCode.number : FaultCode → Nat
  | .outOfRange => 1
  | .decodeError => 2
  | .aluDecodeError => 3
  | .divideByZero => 4
  | .illegalRegister => 5
  | .callReturnOverflow => 6

/-- Advance: `pc <- pc + n + 1` unless the sets-PC bit of the opcode byte is 1. The sum is not wrapped
(40_sequencer.md R105, the spec's decision D5, log 15). -/
def State.advance (ir : Byte) (s : State) : State :=
  if setsPcBit ir then s else { s with pc := s.pc + operandCount ir + 1 }

/-- The end of a step of the instruction with opcode byte `ir`: the writes of its rule and then the advance, or a
fault raised in the state before the step (00_scope.md R9, 40_sequencer.md R105, R107, R110; log 3). -/
def complete (ir : Byte) (s : State) (r : Except FaultRecord State) : Host.Outcome State Fault Refusal :=
  match r with
  | .ok t => .next (t.advance ir)
  | .error f => .next (s.raiseFault f)

end Sys2Proof.Machine
end

