-- ==== Sys2Proof/Machine/Alu.lean ====
section
/-! DEFINITION. The ALU instructions (41_alu.md R120 to R133). -/

namespace Sys2Proof.Machine

/-- An ALU instruction of the form `Ra, Rb` that writes `x[a]` only; both operands are checked, in order, before
anything is read or written (41_alu.md R120). -/
def aluBinary (ir : Byte) (f : Byte → Byte → Byte) (op1 op2 : Byte) (s : State) : Host.Outcome State Fault Refusal :=
  complete ir s do
    let a ← reg op1
    let b ← reg op2
    .ok (s.setReg a (f (s.reg a) (s.reg b)))

/-- An ALU instruction of the form `Ra` (41_alu.md R120). -/
def aluUnary (ir : Byte) (f : Byte → Byte) (op1 : Byte) (s : State) : Host.Outcome State Fault Refusal :=
  complete ir s do
    let a ← reg op1
    .ok (s.setReg a (f (s.reg a)))

/-- `trunc8(u + v)` (41_alu.md R121). -/
def aluAdd (u v : Byte) : Byte := trunc8 (u.toNat + v.toNat)

/-- `trunc8(u * v)`, the low byte of the product (41_alu.md R122). -/
def aluMul (u v : Byte) : Byte := trunc8 (u.toNat * v.toNat)

/-- `trunc8(u + 1)` (41_alu.md R123). -/
def aluInc (u : Byte) : Byte := trunc8 (u.toNat + 1)

/-- `trunc8(u - 1)`, which is `(u + 255) mod 256` (41_alu.md R124). -/
def aluDec (u : Byte) : Byte := trunc8 (u.toNat + 255)

/-- `u mod v`, unsigned, for `v` not 0 (41_alu.md R132). -/
def aluMod (u v : Byte) : Byte := trunc8 (u.toNat % v.toNat)

/-- `u & v` (41_alu.md R126). -/
def aluAnd (u v : Byte) : Byte := u &&& v

/-- `u | v` (41_alu.md R127). -/
def aluOr (u v : Byte) : Byte := u ||| v

/-- `u ^ v` (41_alu.md R128). -/
def aluXor (u v : Byte) : Byte := u ^^^ v

/-- `255 - u`, the 8-bit complement (41_alu.md R129). -/
def aluNot (u : Byte) : Byte := trunc8 (255 - u.toNat)

/-- `trunc8(u << v)`, by the whole byte `v` (41_alu.md R130, R133; log 26). -/
def aluShl (u v : Byte) : Byte := trunc8 (u.toNat * 2 ^ v.toNat)

/-- `u >> v`, which is `floor(u / 2^v)`, by the whole byte `v` (41_alu.md R131, R133; log 26). -/
def aluShr (u v : Byte) : Byte := trunc8 (u.toNat / 2 ^ v.toNat)

/-- ADD (41_alu.md R121). -/
def execAdd (op1 op2 : Byte) (s : State) : Host.Outcome State Fault Refusal := aluBinary Opcode.add.byte aluAdd op1 op2 s

/-- MUL (41_alu.md R122). -/
def execMul (op1 op2 : Byte) (s : State) : Host.Outcome State Fault Refusal := aluBinary Opcode.mul.byte aluMul op1 op2 s

/-- INC (41_alu.md R123). -/
def execInc (op1 : Byte) (s : State) : Host.Outcome State Fault Refusal := aluUnary Opcode.inc.byte aluInc op1 s

/-- DEC (41_alu.md R124). -/
def execDec (op1 : Byte) (s : State) : Host.Outcome State Fault Refusal := aluUnary Opcode.dec.byte aluDec op1 s

/-- MOD: a zero divisor raises DivideByZero with the opcode byte, after both register checks and before any write
(41_alu.md R132). -/
def execMod (op1 op2 : Byte) (s : State) : Host.Outcome State Fault Refusal :=
  complete Opcode.mod.byte s do
    let a ← reg op1
    let b ← reg op2
    if s.reg b = 0 then .error ⟨.divideByZero, Opcode.mod.byte.toNat⟩
    else .ok (s.setReg a (aluMod (s.reg a) (s.reg b)))

/-- CMP: rewrites FL in full and writes no register (41_alu.md R125). -/
def execCmp (op1 op2 : Byte) (s : State) : Host.Outcome State Fault Refusal :=
  complete Opcode.cmp.byte s do
    let a ← reg op1
    let b ← reg op2
    .ok { s with fl := compareFlags (s.reg a) (s.reg b) }

/-- AND (41_alu.md R126). -/
def execAnd (op1 op2 : Byte) (s : State) : Host.Outcome State Fault Refusal := aluBinary Opcode.and.byte aluAnd op1 op2 s

/-- OR (41_alu.md R127). -/
def execOr (op1 op2 : Byte) (s : State) : Host.Outcome State Fault Refusal := aluBinary Opcode.or.byte aluOr op1 op2 s

/-- XOR (41_alu.md R128). -/
def execXor (op1 op2 : Byte) (s : State) : Host.Outcome State Fault Refusal := aluBinary Opcode.xor.byte aluXor op1 op2 s

/-- NOT (41_alu.md R129). -/
def execNot (op1 : Byte) (s : State) : Host.Outcome State Fault Refusal := aluUnary Opcode.not.byte aluNot op1 s

/-- SHL (41_alu.md R130). -/
def execShl (op1 op2 : Byte) (s : State) : Host.Outcome State Fault Refusal := aluBinary Opcode.shl.byte aluShl op1 op2 s

/-- SHR (41_alu.md R131). -/
def execShr (op1 op2 : Byte) (s : State) : Host.Outcome State Fault Refusal := aluBinary Opcode.shr.byte aluShr op1 op2 s

end Sys2Proof.Machine
end

