-- ==== Sys2Proof/Machine/ControlTransfer.lean ====
section
/-! DEFINITION. Control transfer instructions (43_control_transfer.md R170 to R177). Each sets pc on every path. -/

namespace Sys2Proof.Machine

/-- A jump to `x[a]` when FL meets the condition, else to the byte after the operand; the operand is checked on both
paths (43_control_transfer.md R170 to R173, R176; log 19). -/
def jumpIf (ir : Byte) (cond : Byte → Bool) (op1 : Byte) (s : State) : Host.Outcome State Fault Refusal :=
  complete ir s do
    let a ← reg op1
    .ok { s with pc := if cond s.fl then (s.reg a).toNat else s.pc + 2 }

/-- JMP (43_control_transfer.md R170). -/
def execJmp (op1 : Byte) (s : State) : Host.Outcome State Fault Refusal := jumpIf Opcode.jmp.byte (fun _ => true) op1 s

/-- JEQ (43_control_transfer.md R171). -/
def execJeq (op1 : Byte) (s : State) : Host.Outcome State Fault Refusal := jumpIf Opcode.jeq.byte condEqual op1 s

/-- JNE (43_control_transfer.md R172). -/
def execJne (op1 : Byte) (s : State) : Host.Outcome State Fault Refusal := jumpIf Opcode.jne.byte condNotEqual op1 s

/-- JLE (43_control_transfer.md R173). -/
def execJle (op1 : Byte) (s : State) : Host.Outcome State Fault Refusal := jumpIf Opcode.jle.byte condLessOrEqual op1 s

/-- CALL: push the address after the operand, then jump to `x[a]`, read after the push. A return address above 255
faults before any write (43_control_transfer.md R174, the spec's decision D12, log 21; log 24). -/
def execCall (op1 : Byte) (s : State) : Host.Outcome State Fault Refusal :=
  complete Opcode.call.byte s do
    let a ← reg op1
    if Config.lastAddress < s.pc + 2 then .error ⟨.callReturnOverflow, s.pc + 2⟩
    else
      let t ← push (fun _ => trunc8 (s.pc + 2)) s
      .ok { t with pc := (t.reg a).toNat }

/-- RET: pop the return address into pc (43_control_transfer.md R175). -/
def execRet (s : State) : Host.Outcome State Fault Refusal :=
  complete Opcode.ret.byte s do
    let v ← memRead s.sp.toNat s
    .ok { s with pc := v.toNat }.incSp

end Sys2Proof.Machine
end

