-- ==== Sys2Proof/Machine/DataMovement.lean ====
section
/-! DEFINITION. Data movement, stack and output instructions (42_data_movement.md R150 to R158). -/

namespace Sys2Proof.Machine

/-- LDI (42_data_movement.md R150). -/
def execLdi (op1 imm : Byte) (s : State) : Host.Outcome State Fault Refusal :=
  complete Opcode.ldi.byte s do
    let a ← reg op1
    .ok (s.setReg a imm)

/-- LD (42_data_movement.md R151). -/
def execLd (op1 op2 : Byte) (s : State) : Host.Outcome State Fault Refusal :=
  complete Opcode.ld.byte s do
    let a ← reg op1
    let b ← reg op2
    let v ← memRead (s.reg b).toNat s
    .ok (s.setReg a v)

/-- ST (42_data_movement.md R152). -/
def execSt (op1 op2 : Byte) (s : State) : Host.Outcome State Fault Refusal :=
  complete Opcode.st.byte s do
    let a ← reg op1
    let b ← reg op2
    memWrite (s.reg a).toNat (s.reg b) s

/-- PUSH: `x[a]` is read after SP was decremented, which shows for `PUSH R7` (42_data_movement.md R153; log 24). -/
def execPush (op1 : Byte) (s : State) : Host.Outcome State Fault Refusal :=
  complete Opcode.push.byte s do
    let a ← reg op1
    push (fun t => t.reg a) s

/-- POP: SP is incremented after `x[a]` was written, which shows for `POP R7` (42_data_movement.md R154; log 24). -/
def execPop (op1 : Byte) (s : State) : Host.Outcome State Fault Refusal :=
  complete Opcode.pop.byte s do
    let a ← reg op1
    let v ← memRead s.sp.toNat s
    .ok (s.setReg a v).incSp

/-- An output instruction: append one event with the value of `x[a]` (42_data_movement.md R155, R156). -/
def output (ir : Byte) (kind : Byte → OutEvent) (op1 : Byte) (s : State) : Host.Outcome State Fault Refusal :=
  complete ir s do
    let a ← reg op1
    .ok (s.emit (kind (s.reg a)))

/-- PRN (42_data_movement.md R155). -/
def execPrn (op1 : Byte) (s : State) : Host.Outcome State Fault Refusal := output Opcode.prn.byte .dec op1 s

/-- PRA (42_data_movement.md R156). -/
def execPra (op1 : Byte) (s : State) : Host.Outcome State Fault Refusal := output Opcode.pra.byte .chr op1 s

end Sys2Proof.Machine
end

