-- ==== Sys2Proof/Machine/Sequencer.lean ====
section
/-! DEFINITION. The sequencer's own instructions, NOP and HLT (40_sequencer.md R108, R109). -/

namespace Sys2Proof.Machine

/-- NOP: only the advance (40_sequencer.md R108). -/
def execNop (s : State) : Host.Outcome State Fault Refusal :=
  complete Opcode.nop.byte s (.ok s)

/-- The pc after HLT: not advanced (40_sequencer.md R109, the spec's decision D6, log 16). -/
def pcAfterHalt (s : State) : Nat := s.pc

/-- HLT: the step ends at decode with run = HALTED, before the advance (40_sequencer.md R109, R110). -/
def execHlt (s : State) : Host.Outcome State Fault Refusal :=
  .next { s with run := .halted, pc := pcAfterHalt s }

end Sys2Proof.Machine
end

