-- ==== Sys2Proof/Machine/Dispatch.lean ====
section
/-! DEFINITION. Dispatch: one arm per instruction, each one call of its meaning (40_sequencer.md R104). -/

namespace Sys2Proof.Machine

def exec (i : Instr) (s : State) : Host.Outcome State Fault Refusal :=
  match i with
  | .nop => Sys2Proof.Machine.execNop s
  | .hlt => Sys2Proof.Machine.execHlt s
  | .ret => Sys2Proof.Machine.execRet s
  | .push op1 => Sys2Proof.Machine.execPush op1 s
  | .pop op1 => Sys2Proof.Machine.execPop op1 s
  | .prn op1 => Sys2Proof.Machine.execPrn op1 s
  | .pra op1 => Sys2Proof.Machine.execPra op1 s
  | .call op1 => Sys2Proof.Machine.execCall op1 s
  | .jmp op1 => Sys2Proof.Machine.execJmp op1 s
  | .jeq op1 => Sys2Proof.Machine.execJeq op1 s
  | .jne op1 => Sys2Proof.Machine.execJne op1 s
  | .jle op1 => Sys2Proof.Machine.execJle op1 s
  | .inc op1 => Sys2Proof.Machine.execInc op1 s
  | .dec op1 => Sys2Proof.Machine.execDec op1 s
  | .not op1 => Sys2Proof.Machine.execNot op1 s
  | .ldi op1 imm => Sys2Proof.Machine.execLdi op1 imm s
  | .ld op1 op2 => Sys2Proof.Machine.execLd op1 op2 s
  | .st op1 op2 => Sys2Proof.Machine.execSt op1 op2 s
  | .add op1 op2 => Sys2Proof.Machine.execAdd op1 op2 s
  | .mul op1 op2 => Sys2Proof.Machine.execMul op1 op2 s
  | .mod op1 op2 => Sys2Proof.Machine.execMod op1 op2 s
  | .cmp op1 op2 => Sys2Proof.Machine.execCmp op1 op2 s
  | .and op1 op2 => Sys2Proof.Machine.execAnd op1 op2 s
  | .or op1 op2 => Sys2Proof.Machine.execOr op1 op2 s
  | .xor op1 op2 => Sys2Proof.Machine.execXor op1 op2 s
  | .shl op1 op2 => Sys2Proof.Machine.execShl op1 op2 s
  | .shr op1 op2 => Sys2Proof.Machine.execShr op1 op2 s

end Sys2Proof.Machine
end

