-- ==== Sys2Proof/Machine/Fetch.lean ====
section
/-! DEFINITION. Fetch and decode: the part of a step before execute (40_sequencer.md R101 to R103, R110). -/

namespace Sys2Proof.Machine

/-- The fault of an illegal opcode byte (30_encoding.md R73, R78). -/
def illegalOpcodeRecord (ir : Byte) : OpcodeError → FaultRecord
  | .decodeError => ⟨.decodeError, ir.toNat⟩
  | .aluDecodeError => ⟨.aluDecodeError, ir.toNat⟩

/-- Decode in the sequencer: an illegal byte faults before any operand is fetched (40_sequencer.md R102, the spec's
decision D9, log 18). -/
def decodeStage (ir : Byte) : Except FaultRecord Opcode :=
  match decodeOpcode ir with
  | .ok o => .ok o
  | .error e => .error (illegalOpcodeRecord ir e)

/-- The operand byte `k` after pc, read only when the operand count asks for it (40_sequencer.md R103). -/
def fetchOperand (s : State) (ir : Byte) (k : Nat) : Except FaultRecord Byte :=
  if k ≤ operandCount ir then memRead (s.pc + k) s else .ok 0

/-- Fetch, decode, operand fetch, in this order (40_sequencer.md R110). -/
def fetchDecode (s : State) : Except FaultRecord Instr := do
  let ir ← memRead s.pc s
  let o ← decodeStage ir
  let op1 ← fetchOperand s ir 1
  let op2 ← fetchOperand s ir 2
  .ok (o.instr op1 op2)

/-- The bytes of memory an instruction at pc can occupy: up to three, none above address 255 (30_encoding.md R70). -/
def codeBytes (s : State) : List Byte :=
  (List.range (min 3 (Config.lastAddress + 1 - s.pc))).map (fun k => s.mem.read (s.pc + k))

end Sys2Proof.Machine
end

