-- ==== Sys2Proof/Machine/Step.lean ====
section
/-! DEFINITION. One step of the core (40_sequencer.md R100, R110), and where the host's word is placed to be fetched next. -/

namespace Sys2Proof.Machine

/-- One atomic step: fetch, decode and execute one instruction, or raise a fault. In HALTED and FAULTED no step is
enabled (40_sequencer.md R100, R110; log 1). -/
def step (s : State) : Host.Outcome State Fault Refusal :=
  match s.run with
  | .running =>
    match fetchDecode s with
    | .ok i => exec i s
    | .error f => .next (s.raiseFault f)
  | .halted => .fault .coreHalted
  | .faulted => .fault .coreFaulted

/-- Store bytes at rising addresses from `a`; an address above 255 does not exist and takes no byte (log 9). -/
def storeBytes (a : Nat) : List Byte → Memory → Memory
  | [], m => m
  | b :: bs, m => storeBytes (a + 1) bs (if a ≤ Config.lastAddress then m.write a b else m)

/-- `s` with the bytes of a table word at pc, where `step` fetches its next instruction (log 7, log 9). -/
def State.withFetchWord (s : State) (nbits w : Nat) : State :=
  { s with mem := storeBytes s.pc (tableBytes nbits w) s.mem }

end Sys2Proof.Machine
end

