-- ==== Sys2Proof/Machine/Boot.lean ====
section
/-! DEFINITION. Reset and boot as the outside world performs them (70_reset_and_hazards.md R230 to R232). -/

namespace Sys2Proof.Machine

/-- Asserting reset in any run state sets every component to its reset value (70_reset_and_hazards.md R231). -/
def State.assertReset (_ : State) : State := State.reset

/-- The image bytes in file order at addresses `a`, `a + 1`, ... (70_reset_and_hazards.md R232). -/
def Memory.writeImage (a : Nat) : List Byte → Memory → Memory
  | [], m => m
  | b :: bs, m => Memory.writeImage (a + 1) bs (m.write a b)

/-- The host's load before the run: the image at address 0. An image of more than 256 bytes is a host error and the
core never starts (70_reset_and_hazards.md R232, the spec's decision D18, log 8). -/
def State.loadImage (image : List Byte) (s : State) : Option State :=
  if image.length ≤ 256 then some { s with mem := Memory.writeImage 0 image s.mem } else none

/-- Boot from any state: reset, then load the image; the core then steps from pc = 0 (70_reset_and_hazards.md R232). -/
def boot (image : List Byte) (s : State) : Option State := s.assertReset.loadImage image

end Sys2Proof.Machine
end

