-- ==== Sys2Proof/Safety.lean ====
section
/-! DEFINITION. What claims speak of: the end of a run, the invariant of the core, and the fault priority as the spec's
own list gives it. -/

namespace Sys2Proof.Machine

/-- The run ended normally: HALTED (60_exceptions.md R210). -/
def State.endedNormally (s : State) : Prop := s.run = .halted

/-- The run failed: FAULTED, with the cause in `fault` (60_exceptions.md R210). -/
def State.failed (s : State) : Prop := s.run = .faulted

/-- A run is over in the first state whose run is not RUNNING (60_exceptions.md R210). -/
def State.ended (s : State) : Prop := s.run ≠ .running

/-- What holds in every state the core can be in between steps. -/
structure Inv (s : State) : Prop where
  /-- pc is in 0..256 (10_state.md R25). -/
  pc_le : s.pc ≤ Config.pcMax
  /-- FL holds no flag or exactly one, and its bits 7:3 are 0 (10_state.md R27, R28, R30). -/
  fl_legal : s.fl ∈ [0x00#8, 0x01#8, 0x02#8, 0x04#8]
  /-- Memory is in canonical form with every address below 256 (log 4). -/
  mem_wf : s.mem.wf = true
  /-- There is a fault record exactly in FAULTED (10_state.md R34). -/
  fault_iff : s.fault.isSome = true ↔ s.run = .faulted

/-- The fault an instruction raises by itself once its register operands are legal: DivideByZero for MOD and
CallReturnOverflow for CALL (60_exceptions.md R203, item 5). -/
def ownFault (s : State) : Instr → Option FaultRecord
  | .mod _ op2 => if s.reg (Fin.ofNat 8 op2.toNat) = 0 then some ⟨.divideByZero, 0xA4⟩ else none
  | .call _ => if 255 < s.pc + 2 then some ⟨.callReturnOverflow, s.pc + 2⟩ else none
  | _ => none

/-- The fault of an instruction: the first illegal register operand in operand order, else its own
(60_exceptions.md R203, items 4 and 5). -/
def executeFault (s : State) (i : Instr) : Option FaultRecord :=
  match i.regOperands.find? (fun op => decide (7 < op.toNat)) with
  | some op => some ⟨.illegalRegister, op.toNat⟩
  | none => ownFault s i

/-- The first fault of a step in the order of 60_exceptions.md R203, from memory and registers alone. -/
def firstFault (s : State) : Option FaultRecord :=
  if 255 < s.pc then some ⟨.outOfRange, s.pc⟩
  else
    match decodeOpcode (s.mem.read s.pc) with
    | .error .decodeError => some ⟨.decodeError, (s.mem.read s.pc).toNat⟩
    | .error .aluDecodeError => some ⟨.aluDecodeError, (s.mem.read s.pc).toNat⟩
    | .ok o =>
      if 1 ≤ operandCount (s.mem.read s.pc) ∧ 255 < s.pc + 1 then some ⟨.outOfRange, s.pc + 1⟩
      else if operandCount (s.mem.read s.pc) = 2 ∧ 255 < s.pc + 2 then some ⟨.outOfRange, s.pc + 2⟩
      else executeFault s (o.instr (s.mem.read (s.pc + 1)) (s.mem.read (s.pc + 2)))

/-- The one register operand of a form is checked whatever the state: an operand byte above 7 makes the step a fault
that changes nothing but run and fault (30_encoding.md R74, 60_exceptions.md R200, R204). -/
def ChecksRegister (mk : Byte → Instr) : Prop :=
  ∀ (op1 : Byte) (s : State), 7 < op1.toNat →
    exec (mk op1) s = .next { s with run := .faulted, fault := some ⟨.illegalRegister, op1.toNat⟩ }

/-- Both register operands of a form are checked, the first before the second (30_encoding.md R74, 41_alu.md R120). -/
def ChecksBothRegisters (mk : Byte → Byte → Instr) : Prop :=
  ∀ (op1 op2 : Byte) (s : State),
    (7 < op1.toNat →
      exec (mk op1 op2) s = .next { s with run := .faulted, fault := some ⟨.illegalRegister, op1.toNat⟩ }) ∧
    (op1.toNat ≤ 7 → 7 < op2.toNat →
      exec (mk op1 op2) s = .next { s with run := .faulted, fault := some ⟨.illegalRegister, op2.toNat⟩ })

end Sys2Proof.Machine
end

