-- ==== Sys2Proof/Certificates/Slice0/Obligations.lean ====
section
/-! DEFINITION. The statements for the provers. Each docstring names the rule of spec/ it formalises, and the decision or
inference of the spec, or the log entry of the model, that a clause rests on. -/

open Sys2Proof Sys2Proof.Machine

/-! ### Encoding and decoding -/

/-- Decoding the bytes of any instruction gives it back, with the bytes after it (30_encoding.md R70, R73, R75, R76).
It holds with every operand byte, legal or not. Rests on the spec's opcode bytes (D4). -/
def Obligations.DecodeOfEncodeGivesTheInstruction : Prop :=
  ∀ (i : Instr) (rest : List Byte), decode (encode i ++ rest) = .ok (i, rest)

/-- A byte string that decodes to an instruction begins with that instruction's bytes: no two byte strings of an
instruction exist (30_encoding.md R72, R80). Rests on the spec's opcode bytes (D4). -/
def Obligations.DecodedBytesAreTheEncoding : Prop :=
  ∀ (bs : List Byte) (i : Instr) (rest : List Byte), decode bs = .ok (i, rest) → bs = encode i ++ rest

/-- The fields of every opcode byte agree with the tables: bits 7:6 count the operand bytes, bit 5 marks the 12 ALU
instructions, bit 4 the 6 that set pc. Formalises 30_encoding.md R77, which the spec marks as derived. -/
def Obligations.OpcodeFieldsMatchTheInstruction : Prop :=
  ∀ i : Instr,
    (encode i).length = 1 + i.opcodeByte.toNat / 64 ∧
    (i.opcodeByte.getLsbD 5 = true ↔
      i.parts.1 ∈ [.add, .mul, .inc, .dec, .cmp, .and, .or, .xor, .not, .shl, .shr, .mod]) ∧
    (i.opcodeByte.getLsbD 4 = true ↔ i.parts.1 ∈ [.call, .ret, .jmp, .jeq, .jne, .jle])

/-- Every byte outside the opcode map is illegal and executing one is a fault chosen by bit 5; there are 116 such bytes
with bit 5 = 1 and 113 with bit 5 = 0 (30_encoding.md R78). -/
def Obligations.IllegalOpcodesFaultByBitFive : Prop :=
  let legal : List Byte := [0x00, 0x01, 0x11, 0x45, 0x46, 0x47, 0x48, 0x50, 0x54, 0x55, 0x56, 0x59, 0x65, 0x66, 0x69,
    0x82, 0x83, 0x84, 0xA0, 0xA2, 0xA4, 0xA7, 0xA8, 0xAA, 0xAB, 0xAC, 0xAD]
  let illegal : List Byte := ((List.range 256).map (BitVec.ofNat 8)).filter (fun b => !legal.contains b)
  illegal.length = 229 ∧ (illegal.filter (fun b => b.getLsbD 5)).length = 116 ∧
  (illegal.filter (fun b => !b.getLsbD 5)).length = 113 ∧
  ∀ s : State, s.run = .running → s.pc ≤ 255 → s.mem.read s.pc ∉ legal →
    step s = .next { s with
      run := .faulted
      fault := some ⟨if (s.mem.read s.pc).getLsbD 5 then .aluDecodeError else .decodeError, (s.mem.read s.pc).toNat⟩ }

/-- Words written out from the opcode map, one or more of each family (30_encoding.md R76, 95_test_vectors.md). -/
def Obligations.WrittenOutWordsDecode : Prop :=
  decode [0b10000010#8, 0b00000000#8, 0b00001000#8] = .ok (.ldi 0 8, []) ∧
  decode [0b10100000#8, 0b00000000#8, 0b00000001#8] = .ok (.add 0 1, []) ∧
  decode [0b01000111#8, 0b00000000#8] = .ok (.prn 0, []) ∧
  decode [0b00000001#8] = .ok (.hlt, []) ∧
  decode [0b01011001#8, 0b00000101#8] = .ok (.jle 5, []) ∧
  decode [0b10000100#8, 0b00000011#8, 0b00000111#8] = .ok (.st 3 7, [])

/-- When the bytes of memory at pc decode to an instruction, a step of a running core is that instruction's execution
(40_sequencer.md R101 to R104, R110); the advance of pc is part of `exec` (log 3). -/
def Obligations.StepRunsTheDecodedInstruction : Prop :=
  ∀ (s : State) (i : Instr) (rest : List Byte),
    s.run = .running → decode (codeBytes s) = .ok (i, rest) → step s = exec i s

/-! ### Memory -/

/-- A write then a read of the same address returns the value, every other address keeps its byte, and both operations
fail above address 255 with the address (20_memory.md R51). -/
def Obligations.MemoryInterfaceReadsBackWhatWasWritten : Prop :=
  ∀ (s : State) (a : Nat) (v : Byte),
    (a ≤ 255 → ∃ m : Memory,
      memWrite a v s = .ok { s with mem := m } ∧ memRead a { s with mem := m } = .ok v ∧
      ∀ b, b ≠ a → memRead b { s with mem := m } = memRead b s) ∧
    (255 < a → memRead a s = .error ⟨.outOfRange, a⟩ ∧ memWrite a v s = .error ⟨.outOfRange, a⟩)

/-- Two memories in canonical form that read alike at every address are the same data: the model's choice of log 4. -/
def Obligations.CanonicalMemoriesThatReadAlikeAreEqual : Prop :=
  ∀ m n : Memory, m.wf = true → n.wf = true → (∀ a, m.read a = n.read a) → m = n

/-- No instruction but ST, PUSH and CALL changes a byte of memory (20_memory.md R52, the list of writing accesses). -/
def Obligations.OnlyStPushCallWriteMemory : Prop :=
  ∀ (i : Instr) (s t : State), exec i s = .next t → i.parts.1 ∉ [.st, .push, .call] →
    t.mem = s.mem ∧ ∀ a, t.mem.read a = s.mem.read a

/-- No data access raises OutOfRange: an instruction executed in a state without a fault record does not leave that
fault. Formalises 20_memory.md R53, which the spec marks as derived. -/
def Obligations.DataAccessesNeverLeaveTheAddressSpace : Prop :=
  ∀ (i : Instr) (s : State), s.fault = none →
    ∃ t, exec i s = .next t ∧ ∀ a, t.fault ≠ some ⟨.outOfRange, a⟩

/-! ### Flags and output -/

/-- CMP is the only instruction that writes FL; it rewrites all of it, whatever FL held, and leaves exactly one of
L, G, E (10_state.md R28). -/
def Obligations.OnlyCmpWritesFlags : Prop :=
  (∀ (i : Instr) (s t : State), exec i s = .next t → i.parts.1 ≠ .cmp → t.fl = s.fl) ∧
  ∀ (a b : RegIdx) (s : State), ∃ fl ∈ [0x04#8, 0x02#8, 0x01#8],
    ∀ old : Byte, exec (.cmp (regByte a) (regByte b)) { s with fl := old } = .next { s with fl := fl, pc := s.pc + 3 }

/-- FL is read only by JEQ (E), JNE (E) and JLE (L and E): with any other FL every other instruction does the same and
keeps or rewrites FL, and the three jumps do the same whenever the bits they read are the same; CMP writes G and no
instruction reads it (10_state.md R29). The bit positions are the spec's decision D2. -/
def Obligations.FlagsAreReadOnlyByConditionalJumps : Prop :=
  ∀ (s : State) (fl : Byte),
    (∀ i : Instr, i.parts.1 ∉ [.jeq, .jne, .jle, .cmp] →
      ∃ t, exec i s = .next t ∧ exec i { s with fl := fl } = .next { t with fl := fl }) ∧
    (∀ a b : RegIdx, exec (.cmp (regByte a) (regByte b)) { s with fl := fl } = exec (.cmp (regByte a) (regByte b)) s ∧
      ∃ t, exec (.cmp (regByte a) (regByte b)) s = .next t ∧
        (t.fl.getLsbD 1 = true ↔ (s.reg b).toNat < (s.reg a).toNat)) ∧
    (fl.getLsbD 0 = s.fl.getLsbD 0 → ∀ op1 : Byte,
      (∃ t, exec (.jeq op1) s = .next t ∧ exec (.jeq op1) { s with fl := fl } = .next { t with fl := fl }) ∧
      (∃ t, exec (.jne op1) s = .next t ∧ exec (.jne op1) { s with fl := fl } = .next { t with fl := fl })) ∧
    (fl.getLsbD 0 = s.fl.getLsbD 0 → fl.getLsbD 2 = s.fl.getLsbD 2 → ∀ op1 : Byte,
      ∃ t, exec (.jle op1) s = .next t ∧ exec (.jle op1) { s with fl := fl } = .next { t with fl := fl })

/-- No instruction reads run, fault or out, and only PRN and PRA append to out (10_state.md R35, R39, the spec's
decisions D13, D17). -/
def Obligations.OutRunAndFaultAreNeverRead : Prop :=
  ∀ (i : Instr) (s : State), ∃ (t : State) (ev : List OutEvent), exec i s = .next t ∧
    (ev ≠ [] → i.parts.1 ∈ [.prn, .pra]) ∧
    (∀ o, exec i { s with out := o } = .next { t with out := o ++ ev }) ∧
    (∀ r f, ∃ u, exec i { s with run := r, fault := f } = .next u ∧ { u with run := t.run, fault := t.fault } = t)

/-! ### Reset and boot -/

/-- At reset every register is 0 except R7, which is 0xF4 (10_state.md R24). -/
def Obligations.ResetRegistersAreZeroButTheStackPointer : Prop :=
  State.reset.reg 7 = 0xF4#8 ∧ ∀ r : RegIdx, r ≠ 7 → State.reset.reg r = 0

/-- The rest of the reset state, from any state (70_reset_and_hazards.md R230, R231; FL by the spec's decision D3, reset
as construction by D18). -/
def Obligations.ResetPutsEveryComponentAtItsValue : Prop :=
  ∀ s : State, s.assertReset = State.reset ∧ State.reset.fl = 0 ∧ State.reset.pc = 0 ∧
    (∀ a, State.reset.mem.read a = 0) ∧ State.reset.run = .running ∧ State.reset.fault = none ∧ State.reset.out = []

/-- Boot puts an image of up to 256 bytes at addresses 0, 1, ... with zeros after it and every other component at its
reset value; a longer image never starts (70_reset_and_hazards.md R232, the spec's decision D18, log 8). FL is reset by
the spec's decision D3; that the memory is in canonical form (`m.wf`) is the model's choice of log 4. -/
def Obligations.BootPlacesTheImageFromAddressZero : Prop :=
  ∀ (image : List Byte) (s : State),
    (image.length ≤ 256 → ∃ m : Memory, boot image s = some { State.reset with mem := m } ∧ m.wf = true ∧
      ∀ k, m.read k = image.getD k 0) ∧
    (256 < image.length → boot image s = none)

/-! ### The invariant -/

/-- The reset state meets the invariant (70_reset_and_hazards.md R230; FL by the spec's decision D3). Its part `mem_wf`,
memory in canonical form, is the model's choice of log 4; the bits of FL and the existence of a fault record exactly in
FAULTED rest on the spec's decisions D2 and D7, the bound of pc on D5. -/
def Obligations.ResetMeetsTheInvariant : Prop := Inv State.reset

/-- Every step keeps the invariant: pc in 0..256, FL one of four values, memory canonical and below address 256, a
fault record exactly in FAULTED (10_state.md R25, R27, R34, the spec's decisions D2, D3, D5, D7; log 4 for memory). -/
def Obligations.EveryStepKeepsTheInvariant : Prop :=
  ∀ s t : State, Inv s → step s = .next t → Inv t

/-! ### The sequencer and faults -/

/-- NOP is the byte 0x00 and only advances pc by 1; its only fault is that of its fetch (40_sequencer.md R108). The
opcode byte is the spec's decision D4, the entry into FAULTED D7. -/
def Obligations.NopOnlyAdvances : Prop :=
  (∀ rest, decode (0x00#8 :: rest) = .ok (.nop, rest)) ∧
  (∀ s : State, exec .nop s = .next { s with pc := s.pc + 1 }) ∧
  ∀ s : State, s.run = .running →
    (s.pc ≤ 255 → s.mem.read s.pc = 0x00#8 → step s = .next { s with pc := s.pc + 1 }) ∧
    (255 < s.pc → step s = .next { s with run := .faulted, fault := some ⟨.outOfRange, s.pc⟩ })

/-- HLT is the byte 0x01; it sets run to HALTED and changes nothing else, pc included (40_sequencer.md R109, the spec's
decision D6). -/
def Obligations.HltHaltsWithPcUnchanged : Prop :=
  (∀ rest, decode (0x01#8 :: rest) = .ok (.hlt, rest)) ∧
  ∀ s : State, exec .hlt s = .next { s with run := .halted }

/-- HALTED is entered only by executing the byte 0x01, and always then (40_sequencer.md R109, 10_state.md R33, the
spec's decision D7). -/
def Obligations.OnlyHltEntersHalted : Prop :=
  ∀ s t : State, step s = .next t →
    (t.run = .halted ↔ s.pc ≤ 255 ∧ s.mem.read s.pc = 0x01#8) ∧ (t.run = .halted → t = { s with run := .halted })

/-- In HALTED and FAULTED no step is enabled (40_sequencer.md R100, 60_exceptions.md R205, R208); the model answers a
named stop there, its choice of log 1. -/
def Obligations.StoppedCoreTakesNoStep : Prop :=
  ∀ s : State, (s.run = .halted → step s = .fault .coreHalted) ∧ (s.run = .faulted → step s = .fault .coreFaulted)

/-- A fetch above address 255 faults with the first address out of range; with no operand none is fetched
(40_sequencer.md R101, R103, R106, the spec's decisions D5, D7). -/
def Obligations.FetchesPastTheEndFault : Prop :=
  ∀ s : State, s.run = .running →
    (255 < s.pc → step s = .next { s with run := .faulted, fault := some ⟨.outOfRange, s.pc⟩ }) ∧
    ∀ o : Opcode, s.pc ≤ 255 → s.mem.read s.pc = o.byte →
      (1 ≤ o.byte.toNat / 64 → s.pc = 255 →
        step s = .next { s with run := .faulted, fault := some ⟨.outOfRange, 256⟩ }) ∧
      (o.byte.toNat / 64 = 2 → s.pc = 254 →
        step s = .next { s with run := .faulted, fault := some ⟨.outOfRange, 256⟩ }) ∧
      (o.byte.toNat / 64 = 0 → step s = exec (o.instr 0 0) s)

/-- When an instruction completes with the core still running and its sets-PC bit is 0, pc advances by the operand
count and 1, unwrapped; when the core stops, pc is unchanged (40_sequencer.md R105, R109, 60_exceptions.md R204, the
spec's decisions D5, D6). -/
def Obligations.PcAdvancesUnlessTheSetsPcBitIsSet : Prop :=
  ∀ (i : Instr) (s t : State), s.run = .running → exec i s = .next t →
    (t.run = .running → i.opcodeByte.getLsbD 4 = false → t.pc = s.pc + i.opcodeByte.toNat / 64 + 1) ∧
    (t.run ≠ .running → t.pc = s.pc)

/-- Faults are precise: a step into FAULTED changes only run and fault, and records a cause (60_exceptions.md R204). -/
def Obligations.FaultsArePrecise : Prop :=
  ∀ s t : State, step s = .next t → t.run = .faulted →
    ∃ f : FaultRecord, t = { s with run := .faulted, fault := some f } ∧
      t.x = s.x ∧ t.fl = s.fl ∧ t.pc = s.pc ∧ t.out = s.out ∧ ∀ a, t.mem.read a = s.mem.read a

/-- A running core's step reports exactly the first fault in the spec's order, and completes when there is none
(60_exceptions.md R203, the spec's decisions D9, D10, D12). -/
def Obligations.StepReportsTheFirstFaultInOrder : Prop :=
  ∀ s : State, s.run = .running →
    (∀ f, firstFault s = some f → step s = .next { s with run := .faulted, fault := some f }) ∧
    (firstFault s = none → ∃ t, step s = .next t ∧ t.run ≠ .faulted ∧ t.fault = s.fault)

/-- OutOfRange always records 256 (60_exceptions.md R201, an inference the spec marks as derived). -/
def Obligations.OutOfRangeAlwaysRecordsAddress256 : Prop :=
  ∀ s t : State, Inv s → step s = .next t → ∀ a, t.fault = some ⟨.outOfRange, a⟩ → a = 256

/-! ### ALU -/

/-- ADD (41_alu.md R121). The IllegalRegister clauses rest on the spec's decisions D7 and D10. -/
def Obligations.AddWrapsModulo256 : Prop :=
  (∀ op1 op2 rest, decode (0xA0#8 :: op1 :: op2 :: rest) = .ok (.add op1 op2, rest)) ∧
  (∀ (a b : RegIdx) (s : State), ∃ v : Byte, v.toNat = ((s.reg a).toNat + (s.reg b).toNat) % 256 ∧
    exec (.add (regByte a) (regByte b)) s = .next { s with x := s.x.set a v, pc := s.pc + 3 }) ∧
  ChecksBothRegisters .add

/-- MUL (41_alu.md R122). The opcode byte is the spec's decision D4; the IllegalRegister clauses rest on D7 and D10. -/
def Obligations.MulKeepsTheLowByte : Prop :=
  (∀ op1 op2 rest, decode (0xA2#8 :: op1 :: op2 :: rest) = .ok (.mul op1 op2, rest)) ∧
  (∀ (a b : RegIdx) (s : State), ∃ v : Byte, v.toNat = (s.reg a).toNat * (s.reg b).toNat % 256 ∧
    exec (.mul (regByte a) (regByte b)) s = .next { s with x := s.x.set a v, pc := s.pc + 3 }) ∧
  ChecksBothRegisters .mul

/-- INC (41_alu.md R123). The opcode byte is the spec's decision D4; the IllegalRegister clause rests on D7 and D10. -/
def Obligations.IncAddsOneModulo256 : Prop :=
  (∀ op1 rest, decode (0x65#8 :: op1 :: rest) = .ok (.inc op1, rest)) ∧
  (∀ (a : RegIdx) (s : State), ∃ v : Byte, v.toNat = ((s.reg a).toNat + 1) % 256 ∧
    exec (.inc (regByte a)) s = .next { s with x := s.x.set a v, pc := s.pc + 2 }) ∧
  ChecksRegister .inc

/-- DEC (41_alu.md R124). The opcode byte is the spec's decision D4; the IllegalRegister clause rests on D7 and D10. -/
def Obligations.DecSubtractsOneModulo256 : Prop :=
  (∀ op1 rest, decode (0x66#8 :: op1 :: rest) = .ok (.dec op1, rest)) ∧
  (∀ (a : RegIdx) (s : State), ∃ v : Byte, v.toNat = ((s.reg a).toNat + 255) % 256 ∧
    exec (.dec (regByte a)) s = .next { s with x := s.x.set a v, pc := s.pc + 2 }) ∧
  ChecksRegister .dec

/-- MOD (41_alu.md R132): the unsigned remainder, or the fault DivideByZero with info 0xA4 and nothing written. The
info value is the spec's decision D8, the opcode byte D4, the IllegalRegister clauses D7 and D10. -/
def Obligations.ModIsTheRemainderOrAFault : Prop :=
  (∀ op1 op2 rest, decode (0xA4#8 :: op1 :: op2 :: rest) = .ok (.mod op1 op2, rest)) ∧
  (∀ (a b : RegIdx) (s : State),
    (s.reg b ≠ 0 → ∃ v : Byte, v.toNat = (s.reg a).toNat % (s.reg b).toNat ∧
      exec (.mod (regByte a) (regByte b)) s = .next { s with x := s.x.set a v, pc := s.pc + 3 }) ∧
    (s.reg b = 0 → exec (.mod (regByte a) (regByte b)) s =
      .next { s with run := .faulted, fault := some ⟨.divideByZero, 0xA4⟩ })) ∧
  ChecksBothRegisters .mod

/-- CMP (41_alu.md R125). The bit positions are the spec's decision D2, the opcode byte D4, the IllegalRegister clauses
D7 and D10. -/
def Obligations.CmpSetsOneFlagByUnsignedOrder : Prop :=
  (∀ op1 op2 rest, decode (0xA7#8 :: op1 :: op2 :: rest) = .ok (.cmp op1 op2, rest)) ∧
  (∀ (a b : RegIdx) (s : State), ∃ fl : Byte,
    exec (.cmp (regByte a) (regByte b)) s = .next { s with fl := fl, pc := s.pc + 3 } ∧
    ((s.reg a).toNat < (s.reg b).toNat → fl = 0b00000100#8) ∧
    ((s.reg b).toNat < (s.reg a).toNat → fl = 0b00000010#8) ∧
    (s.reg a = s.reg b → fl = 0b00000001#8)) ∧
  ChecksBothRegisters .cmp

/-- AND (41_alu.md R126). The opcode byte is the spec's decision D4; the IllegalRegister clauses rest on D7 and D10. -/
def Obligations.AndIsBitwise : Prop :=
  (∀ op1 op2 rest, decode (0xA8#8 :: op1 :: op2 :: rest) = .ok (.and op1 op2, rest)) ∧
  (∀ (a b : RegIdx) (s : State), ∃ v : Byte,
    (∀ k, v.getLsbD k = ((s.reg a).getLsbD k && (s.reg b).getLsbD k)) ∧
    exec (.and (regByte a) (regByte b)) s = .next { s with x := s.x.set a v, pc := s.pc + 3 }) ∧
  ChecksBothRegisters .and

/-- OR (41_alu.md R127). The opcode byte is the spec's decision D4; the IllegalRegister clauses rest on D7 and D10. -/
def Obligations.OrIsBitwise : Prop :=
  (∀ op1 op2 rest, decode (0xAA#8 :: op1 :: op2 :: rest) = .ok (.or op1 op2, rest)) ∧
  (∀ (a b : RegIdx) (s : State), ∃ v : Byte,
    (∀ k, v.getLsbD k = ((s.reg a).getLsbD k || (s.reg b).getLsbD k)) ∧
    exec (.or (regByte a) (regByte b)) s = .next { s with x := s.x.set a v, pc := s.pc + 3 }) ∧
  ChecksBothRegisters .or

/-- XOR (41_alu.md R128). The opcode byte is the spec's decision D4; the IllegalRegister clauses rest on D7 and D10. -/
def Obligations.XorIsBitwise : Prop :=
  (∀ op1 op2 rest, decode (0xAB#8 :: op1 :: op2 :: rest) = .ok (.xor op1 op2, rest)) ∧
  (∀ (a b : RegIdx) (s : State), ∃ v : Byte,
    (∀ k, v.getLsbD k = ((s.reg a).getLsbD k ^^ (s.reg b).getLsbD k)) ∧
    exec (.xor (regByte a) (regByte b)) s = .next { s with x := s.x.set a v, pc := s.pc + 3 }) ∧
  ChecksBothRegisters .xor

/-- NOT (41_alu.md R129). The opcode byte is the spec's decision D4; the IllegalRegister clause rests on D7 and D10. -/
def Obligations.NotComplementsEveryBit : Prop :=
  (∀ op1 rest, decode (0x69#8 :: op1 :: rest) = .ok (.not op1, rest)) ∧
  (∀ (a : RegIdx) (s : State), ∃ v : Byte, v.toNat = 255 - (s.reg a).toNat ∧
    (∀ k < 8, v.getLsbD k = !(s.reg a).getLsbD k) ∧
    exec (.not (regByte a)) s = .next { s with x := s.x.set a v, pc := s.pc + 2 }) ∧
  ChecksRegister .not

/-- SHL (41_alu.md R130). The opcode byte is the spec's decision D4; the IllegalRegister clauses rest on D7 and D10. -/
def Obligations.ShlShiftsByTheWholeByte : Prop :=
  (∀ op1 op2 rest, decode (0xAC#8 :: op1 :: op2 :: rest) = .ok (.shl op1 op2, rest)) ∧
  (∀ (a b : RegIdx) (s : State), ∃ v : Byte, v.toNat = (s.reg a).toNat * 2 ^ (s.reg b).toNat % 256 ∧
    exec (.shl (regByte a) (regByte b)) s = .next { s with x := s.x.set a v, pc := s.pc + 3 }) ∧
  ChecksBothRegisters .shl

/-- SHR (41_alu.md R131). The opcode byte is the spec's decision D4; the IllegalRegister clauses rest on D7 and D10. -/
def Obligations.ShrShiftsByTheWholeByte : Prop :=
  (∀ op1 op2 rest, decode (0xAD#8 :: op1 :: op2 :: rest) = .ok (.shr op1 op2, rest)) ∧
  (∀ (a b : RegIdx) (s : State), ∃ v : Byte, v.toNat = (s.reg a).toNat / 2 ^ (s.reg b).toNat ∧
    exec (.shr (regByte a) (regByte b)) s = .next { s with x := s.x.set a v, pc := s.pc + 3 }) ∧
  ChecksBothRegisters .shr

/-- A shift by 8 or more gives 0 (41_alu.md R133, a bullet the spec marks as derived; log 26). -/
def Obligations.ShiftsByEightOrMoreGiveZero : Prop :=
  ∀ (a b : RegIdx) (s : State), 8 ≤ (s.reg b).toNat →
    exec (.shl (regByte a) (regByte b)) s = .next { s with x := s.x.set a 0, pc := s.pc + 3 } ∧
    exec (.shr (regByte a) (regByte b)) s = .next { s with x := s.x.set a 0, pc := s.pc + 3 }

/-- ADD, MUL, INC, DEC and NOT give the same byte when the operands are read as two's complement numbers (41_alu.md
R133, its third bullet). -/
def Obligations.ArithmeticIsTheSameUnderSignedReading : Prop :=
  ∀ (a b : RegIdx) (s : State),
    exec (.add (regByte a) (regByte b)) s =
      .next { s with x := s.x.set a (BitVec.ofInt 8 ((s.reg a).toInt + (s.reg b).toInt)), pc := s.pc + 3 } ∧
    exec (.mul (regByte a) (regByte b)) s =
      .next { s with x := s.x.set a (BitVec.ofInt 8 ((s.reg a).toInt * (s.reg b).toInt)), pc := s.pc + 3 } ∧
    exec (.inc (regByte a)) s =
      .next { s with x := s.x.set a (BitVec.ofInt 8 ((s.reg a).toInt + 1)), pc := s.pc + 2 } ∧
    exec (.dec (regByte a)) s =
      .next { s with x := s.x.set a (BitVec.ofInt 8 ((s.reg a).toInt - 1)), pc := s.pc + 2 } ∧
    exec (.not (regByte a)) s =
      .next { s with x := s.x.set a (BitVec.ofInt 8 (-1 - (s.reg a).toInt)), pc := s.pc + 2 }

/-! ### Data movement, stack and output -/

/-- LDI (42_data_movement.md R150). The IllegalRegister clause rests on the spec's decisions D7 and D10. -/
def Obligations.LdiLoadsTheImmediateByte : Prop :=
  (∀ op1 imm rest, decode (0x82#8 :: op1 :: imm :: rest) = .ok (.ldi op1 imm, rest)) ∧
  (∀ (a : RegIdx) (imm : Byte) (s : State),
    exec (.ldi (regByte a) imm) s = .next { s with x := s.x.set a imm, pc := s.pc + 3 }) ∧
  ∀ imm, ChecksRegister (fun op1 => .ldi op1 imm)

/-- LD (42_data_movement.md R151). The opcode byte is the spec's decision D4; the IllegalRegister clauses rest on D7 and
D10. -/
def Obligations.LdReadsMemoryAtTheSecondRegister : Prop :=
  (∀ op1 op2 rest, decode (0x83#8 :: op1 :: op2 :: rest) = .ok (.ld op1 op2, rest)) ∧
  (∀ (a b : RegIdx) (s : State), exec (.ld (regByte a) (regByte b)) s =
    .next { s with x := s.x.set a (s.mem.read (s.reg b).toNat), pc := s.pc + 3 }) ∧
  ChecksBothRegisters .ld

/-- ST (42_data_movement.md R152). The opcode byte is the spec's decision D4; the IllegalRegister clauses rest on D7 and
D10. -/
def Obligations.StStoresOneByteAtTheFirstRegister : Prop :=
  (∀ op1 op2 rest, decode (0x84#8 :: op1 :: op2 :: rest) = .ok (.st op1 op2, rest)) ∧
  (∀ (a b : RegIdx) (s : State), ∃ m : Memory,
    exec (.st (regByte a) (regByte b)) s = .next { s with mem := m, pc := s.pc + 3 } ∧
    m.read (s.reg a).toNat = s.reg b ∧ ∀ c, c ≠ (s.reg a).toNat → m.read c = s.mem.read c) ∧
  ChecksBothRegisters .st

/-- PUSH (42_data_movement.md R153, R158): SP moves down by one modulo 256 and one byte is stored at the new SP; for R7
that byte is the new SP. SP is R7 by the spec's decision D1, the wrap is D11, the order D16, the opcode byte D4, the
IllegalRegister clause D7 and D10. -/
def Obligations.PushStoresBelowTheStackPointer : Prop :=
  (∀ op1 rest, decode (0x45#8 :: op1 :: rest) = .ok (.push op1, rest)) ∧
  (∀ (a : RegIdx) (s : State), ∃ (sp : Byte) (m : Memory),
    exec (.push (regByte a)) s = .next { s with x := s.x.set 7 sp, mem := m, pc := s.pc + 2 } ∧
    sp.toNat = ((s.reg 7).toNat + 255) % 256 ∧ pushAddress s = sp.toNat ∧
    m.read (pushAddress s) = (if a = 7 then sp else s.reg a) ∧
    ∀ c, c ≠ pushAddress s → m.read c = s.mem.read c) ∧
  ChecksRegister .push

/-- POP (42_data_movement.md R154, R158): the byte at SP goes to the register and SP moves up by one modulo 256; for R7
the incremented value is the byte read. SP is R7 by the spec's decision D1, the wrap is D11, the order D16, the opcode
byte D4, the IllegalRegister clause D7 and D10. -/
def Obligations.PopLoadsAtTheStackPointer : Prop :=
  (∀ op1 rest, decode (0x46#8 :: op1 :: rest) = .ok (.pop op1, rest)) ∧
  (∀ (a : RegIdx) (s : State), ∃ v sp : Byte,
    exec (.pop (regByte a)) s = .next { s with x := (s.x.set a v).set 7 sp, pc := s.pc + 2 } ∧
    v = s.mem.read (s.reg 7).toNat ∧
    (a ≠ 7 → sp.toNat = ((s.reg 7).toNat + 1) % 256) ∧ (a = 7 → sp.toNat = (v.toNat + 1) % 256)) ∧
  ChecksRegister .pop

/-- PRN (42_data_movement.md R155). The event stream is the spec's decision D13, the IllegalRegister clause D7 and D10. -/
def Obligations.PrnEmitsADecimalEvent : Prop :=
  (∀ op1 rest, decode (0x47#8 :: op1 :: rest) = .ok (.prn op1, rest)) ∧
  (∀ (a : RegIdx) (s : State), exec (.prn (regByte a)) s =
    .next { s with out := s.out ++ [.dec (s.reg a)], pc := s.pc + 2 }) ∧
  ChecksRegister .prn

/-- PRA (42_data_movement.md R156). The event stream is the spec's decision D13, the opcode byte D4, the IllegalRegister
clause D7 and D10. -/
def Obligations.PraEmitsACharacterEvent : Prop :=
  (∀ op1 rest, decode (0x48#8 :: op1 :: rest) = .ok (.pra op1, rest)) ∧
  (∀ (a : RegIdx) (s : State), exec (.pra (regByte a)) s =
    .next { s with out := s.out ++ [.chr (s.reg a)], pc := s.pc + 2 }) ∧
  ChecksRegister .pra

/-- PUSH then POP of the same register leaves every register, SP included, as it was (42_data_movement.md R158, its last
sentence, and 95_test_vectors.md P4; R7 by the spec's decisions D1, D11, D16). -/
def Obligations.PushThenPopRestoresRegisters : Prop :=
  ∀ (a : RegIdx) (s : State), ∃ t u : State,
    exec (.push (regByte a)) s = .next t ∧ exec (.pop (regByte a)) t = .next u ∧
    u = { s with mem := t.mem, pc := s.pc + 4 }

/-- A byte written by ST is what the next fetch reads, in an opcode or an operand byte. The ST in execution is never
changed, wherever it stores. When the memory after it holds, at the next pc, the byte of any opcode with its operand bytes
below address 256, the next step executes that opcode with the operand bytes of that memory; so a store of `o.byte` at
pc + 3 makes the next step execute `o`. Formalises 20_memory.md R62 for ST, a rule the spec marks as derived
(95_test_vectors.md S14). The opcode bytes are the spec's decision D4. -/
def Obligations.StoreIntoCodeIsSeenByTheNextFetch : Prop :=
  ∀ (s : State) (a b : RegIdx), s.run = .running → s.pc ≤ 253 → s.mem.read s.pc = 0x84#8 →
    s.mem.read (s.pc + 1) = regByte a → s.mem.read (s.pc + 2) = regByte b →
    ∃ (m : Memory) (t : State), t = { s with mem := m, pc := s.pc + 3 } ∧ step s = .next t ∧
      m.read (s.reg a).toNat = s.reg b ∧ (∀ c, c ≠ (s.reg a).toNat → m.read c = s.mem.read c) ∧
      ∀ o : Opcode, m.read (s.pc + 3) = o.byte → s.pc + 3 + o.byte.toNat / 64 ≤ 255 →
        step t = exec (o.instr (m.read (s.pc + 4)) (m.read (s.pc + 5))) t

/-! ### Control transfer -/

/-- JMP (43_control_transfer.md R170). The opcode byte is the spec's decision D4; the IllegalRegister clause rests on D7
and D10. -/
def Obligations.JmpSetsPcToTheRegister : Prop :=
  (∀ op1 rest, decode (0x54#8 :: op1 :: rest) = .ok (.jmp op1, rest)) ∧
  (∀ (a : RegIdx) (s : State), exec (.jmp (regByte a)) s = .next { s with pc := (s.reg a).toNat }) ∧
  ChecksRegister .jmp

/-- JEQ (43_control_transfer.md R171). The check on the path not taken is the spec's decision D10, the bit of E D2, the
opcode byte D4. -/
def Obligations.JeqJumpsWhenEqual : Prop :=
  (∀ op1 rest, decode (0x55#8 :: op1 :: rest) = .ok (.jeq op1, rest)) ∧
  (∀ (a : RegIdx) (s : State),
    (s.fl.getLsbD 0 = true → exec (.jeq (regByte a)) s = .next { s with pc := (s.reg a).toNat }) ∧
    (s.fl.getLsbD 0 = false → exec (.jeq (regByte a)) s = .next { s with pc := s.pc + 2 })) ∧
  ChecksRegister .jeq

/-- JNE (43_control_transfer.md R172). The opcode byte is the spec's decision D4, the bit of E D2; the IllegalRegister
clause rests on D7 and D10. -/
def Obligations.JneJumpsWhenNotEqual : Prop :=
  (∀ op1 rest, decode (0x56#8 :: op1 :: rest) = .ok (.jne op1, rest)) ∧
  (∀ (a : RegIdx) (s : State),
    (s.fl.getLsbD 0 = false → exec (.jne (regByte a)) s = .next { s with pc := (s.reg a).toNat }) ∧
    (s.fl.getLsbD 0 = true → exec (.jne (regByte a)) s = .next { s with pc := s.pc + 2 })) ∧
  ChecksRegister .jne

/-- JLE (43_control_transfer.md R173). The opcode byte is the spec's decision D4, the bits of L and E D2; the
IllegalRegister clause rests on D7 and D10. -/
def Obligations.JleJumpsWhenLessOrEqual : Prop :=
  (∀ op1 rest, decode (0x59#8 :: op1 :: rest) = .ok (.jle op1, rest)) ∧
  (∀ (a : RegIdx) (s : State),
    (s.fl.getLsbD 2 = true ∨ s.fl.getLsbD 0 = true →
      exec (.jle (regByte a)) s = .next { s with pc := (s.reg a).toNat }) ∧
    (s.fl.getLsbD 2 = false ∧ s.fl.getLsbD 0 = false →
      exec (.jle (regByte a)) s = .next { s with pc := s.pc + 2 })) ∧
  ChecksRegister .jle

/-- CALL (43_control_transfer.md R174, 42_data_movement.md R158): SP moves down, the address after the operand is stored
at the new SP, pc is the register as read after the push. A return address above 255 is the fault CallReturnOverflow
with nothing written. That fault is the spec's decision D12, SP = R7 D1, the wrap D11, the order D16, the opcode byte D4,
the IllegalRegister clause D7 and D10. -/
def Obligations.CallPushesTheReturnAddress : Prop :=
  (∀ op1 rest, decode (0x50#8 :: op1 :: rest) = .ok (.call op1, rest)) ∧
  (∀ (a : RegIdx) (s : State),
    (s.pc + 2 ≤ 255 → ∃ (sp : Byte) (m : Memory),
      exec (.call (regByte a)) s = .next { s with
        x := s.x.set 7 sp, mem := m, pc := (if a = 7 then sp else s.reg a).toNat } ∧
      sp.toNat = ((s.reg 7).toNat + 255) % 256 ∧ pushAddress s = sp.toNat ∧
      (m.read (pushAddress s)).toNat = s.pc + 2 ∧ ∀ c, c ≠ pushAddress s → m.read c = s.mem.read c) ∧
    (255 < s.pc + 2 → exec (.call (regByte a)) s =
      .next { s with run := .faulted, fault := some ⟨.callReturnOverflow, s.pc + 2⟩ })) ∧
  ChecksRegister .call

/-- RET (43_control_transfer.md R175). SP = R7 is the spec's decision D1, the opcode byte D4, the wrap D11. -/
def Obligations.RetPopsPc : Prop :=
  (∀ rest, decode (0x11#8 :: rest) = .ok (.ret, rest)) ∧
  ∀ s : State, ∃ sp : Byte, sp.toNat = ((s.reg 7).toNat + 1) % 256 ∧
    exec .ret s = .next { s with x := s.x.set 7 sp, pc := (s.mem.read (s.reg 7).toNat).toNat }

/-- CALL then, with SP and the byte at SP as CALL left them, RET returns to the address after the CALL and restores SP
(43_control_transfer.md R177; SP = R7 and its wrap by the spec's decisions D1, D11). -/
def Obligations.RetReturnsAfterTheCall : Prop :=
  ∀ (a : RegIdx) (s : State), s.pc + 2 ≤ 255 → ∃ t, exec (.call (regByte a)) s = .next t ∧
    ∀ u : State, u.reg 7 = t.reg 7 → u.mem.read (t.reg 7).toNat = t.mem.read (t.reg 7).toNat →
      ∃ w, exec .ret u = .next w ∧ w.pc = s.pc + 2 ∧ w.reg 7 = s.reg 7
end

