-- ==== Sys2Proof/Laws/Decode.lean ====
section
/-! SUPPORT. What the decoder answers on each row of the opcode map, and the fields of each row. -/

namespace Sys2Proof

/-- The decoder finds every row by its byte (30_encoding.md R73). -/
@[simp] theorem decodeOpcode_byte (o : Opcode) : decodeOpcode o.byte = .ok o := by
  cases o <;> decide

/-- A byte decodes to a row only if it is that row's byte (30_encoding.md R72). -/
theorem decodeOpcode_eq_ok {ir : Byte} {o : Opcode} (h : decodeOpcode ir = .ok o) : o.byte = ir := by
  unfold decodeOpcode at h
  split at h
  · rename_i h0; cases h; exact h0.symm
  split at h
  · rename_i h1; cases h; exact h1.symm
  split at h
  · rename_i o' hf
    cases h
    simpa using List.find?_some hf
  split at h
  · split at h
    · rename_i o' hf
      cases h
      simpa using List.find?_some hf
    · cases h
  · cases h

/-- Only an operand count of 0, 1 or 2 belongs to a row (30_encoding.md R70, R77). -/
theorem operandCount_byte_le (o : Opcode) : operandCount o.byte ≤ 2 := by
  cases o <;> decide

end Sys2Proof
end

