-- ==== Sys2Proof/Laws/Flags.lean ====
section
/-! SUPPORT. The three values of FL after a comparison and what the conditions read. -/

namespace Sys2Proof.Machine

/-- A comparison leaves exactly one flag, by the unsigned order (41_alu.md R125). -/
theorem compareFlags_cases (u v : Byte) :
    (u.toNat < v.toNat ∧ compareFlags u v = 0x04#8) ∨ (v.toNat < u.toNat ∧ compareFlags u v = 0x02#8) ∨
    (u = v ∧ compareFlags u v = 0x01#8) := by
  unfold compareFlags
  by_cases h1 : u.toNat < v.toNat
  · exact .inl ⟨h1, if_pos h1⟩
  · by_cases h2 : v.toNat < u.toNat
    · exact .inr (.inl ⟨h2, by rw [if_neg h1, if_pos h2]⟩)
    · exact .inr (.inr ⟨BitVec.eq_of_toNat_eq (by omega), by rw [if_neg h1, if_neg h2]⟩)

/-- JEQ and JNE depend on E only (10_state.md R29). -/
theorem condEqual_congr {f g : Byte} (h : flagE f = flagE g) : condEqual f = condEqual g := h

theorem condNotEqual_congr {f g : Byte} (h : flagE f = flagE g) : condNotEqual f = condNotEqual g := by
  simp [condNotEqual, h]

/-- JLE depends on L and E only (10_state.md R29). -/
theorem condLessOrEqual_congr {f g : Byte} (hl : flagL f = flagL g) (he : flagE f = flagE g) :
    condLessOrEqual f = condLessOrEqual g := by
  simp [condLessOrEqual, hl, he]

end Sys2Proof.Machine
end

