-- ==== Sys2Proof/Laws/Memory.lean ====
section
/-! SUPPORT. The laws of memory: a read after a write, and that every memory operation keeps the canonical form. -/

namespace Sys2Proof.Machine

@[simp] theorem Memory.read_nil (a : Nat) : Memory.read [] a = 0 := rfl

theorem Memory.read_cons (k : Nat) (v : Byte) (m : Memory) (a : Nat) :
    Memory.read ((k, v) :: m) a = if k = a then v else Memory.read m a := rfl

theorem Memory.read_dropCell (m : Memory) (a b : Nat) :
    (m.dropCell a).read b = if b = a then 0 else m.read b := by
  induction m with
  | nil => simp [Memory.dropCell]
  | cons c m ih =>
    obtain ⟨k, v⟩ := c
    by_cases hk : k = a
    · subst hk
      simp only [Memory.dropCell, List.filter_cons, bne_self_eq_false, Memory.read_cons] at ih ⊢
      simp only [Bool.false_eq_true, if_false, ih]
      by_cases hb : b = k
      · simp [hb]
      · simp [hb, Ne.symm hb]
    · simp only [Memory.dropCell, List.filter_cons, Memory.read_cons] at ih ⊢
      rw [if_pos (by simpa using hk), Memory.read_cons, ih]
      by_cases hb : b = a
      · subst hb; simp [hk]
      · simp [hb]

theorem Memory.read_putCell_self (a : Nat) (v : Byte) {m : Memory} (h : ∀ c ∈ m, c.1 ≠ a) :
    (Memory.putCell a v m).read a = v := by
  induction m with
  | nil => simp [Memory.putCell, Memory.read_cons]
  | cons c m ih =>
    obtain ⟨k, w⟩ := c
    have hk : k ≠ a := h (k, w) (by simp)
    simp only [Memory.putCell]
    split
    · simp [Memory.read_cons]
    · rw [Memory.read_cons, if_neg hk]
      exact ih (fun c hc => h c (List.mem_cons_of_mem _ hc))

theorem Memory.read_putCell_ne (a : Nat) (v : Byte) (m : Memory) {b : Nat} (h : b ≠ a) :
    (Memory.putCell a v m).read b = m.read b := by
  induction m with
  | nil => simp [Memory.putCell, Memory.read_cons, h.symm]
  | cons c m ih =>
    obtain ⟨k, w⟩ := c
    simp only [Memory.putCell]
    split
    · rw [Memory.read_cons, if_neg h.symm]
    · rw [Memory.read_cons, Memory.read_cons, ih]

theorem Memory.dropCell_no_key (m : Memory) (a : Nat) : ∀ c ∈ m.dropCell a, c.1 ≠ a := by
  intro c hc
  simpa [Memory.dropCell] using (List.mem_filter.mp hc).2

/-- A read after a write: the byte written at its address, the old byte everywhere else (20_memory.md R51). -/
theorem Memory.read_write (m : Memory) (a : Nat) (v : Byte) (b : Nat) :
    (m.write a v).read b = if b = a then v else m.read b := by
  unfold Memory.write
  by_cases hb : b = a
  · subst hb
    split
    · rename_i hv; rw [Memory.read_dropCell]; simp [hv, Memory.resetByte]
    · rw [if_pos rfl]; exact Memory.read_putCell_self _ v (m.dropCell_no_key _)
  · rw [if_neg hb]
    split
    · rw [Memory.read_dropCell, if_neg hb]
    · rw [Memory.read_putCell_ne _ _ _ hb, Memory.read_dropCell, if_neg hb]

@[simp] theorem Memory.read_write_self (m : Memory) (a : Nat) (v : Byte) : (m.write a v).read a = v := by
  rw [Memory.read_write, if_pos rfl]

theorem Memory.read_write_ne (m : Memory) (a : Nat) (v : Byte) {b : Nat} (h : b ≠ a) :
    (m.write a v).read b = m.read b := by
  rw [Memory.read_write, if_neg h]

theorem Memory.wfFrom_cons (lo k : Nat) (v : Byte) (m : Memory) :
    Memory.wfFrom lo ((k, v) :: m) = true ↔
      lo ≤ k ∧ k ≤ 255 ∧ v ≠ 0 ∧ Memory.wfFrom (k + 1) m = true := by
  simp only [Memory.wfFrom, Bool.and_eq_true, decide_eq_true_eq, and_assoc]
  rfl

theorem Memory.wfFrom_mono {lo lo' : Nat} {m : Memory} (h : lo' ≤ lo) (hm : Memory.wfFrom lo m = true) :
    Memory.wfFrom lo' m = true := by
  cases m with
  | nil => rfl
  | cons c m =>
    obtain ⟨k, v⟩ := c
    rw [Memory.wfFrom_cons] at hm ⊢
    exact ⟨h.trans hm.1, hm.2⟩

theorem Memory.dropCell_wfFrom (a : Nat) {m : Memory} {lo : Nat} (h : Memory.wfFrom lo m = true) :
    Memory.wfFrom lo (m.dropCell a) = true := by
  induction m generalizing lo with
  | nil => rfl
  | cons c m ih =>
    obtain ⟨k, v⟩ := c
    rw [Memory.wfFrom_cons] at h
    obtain ⟨h1, h2, h3, h4⟩ := h
    by_cases hk : k = a
    · have : Memory.dropCell ((k, v) :: m) a = Memory.dropCell m a := by simp [Memory.dropCell, hk]
      rw [this]
      exact Memory.wfFrom_mono (by omega) (ih h4)
    · have : Memory.dropCell ((k, v) :: m) a = (k, v) :: Memory.dropCell m a := by simp [Memory.dropCell, hk]
      rw [this, Memory.wfFrom_cons]
      exact ⟨h1, h2, h3, ih h4⟩

theorem Memory.putCell_wfFrom {a : Nat} {v : Byte} {m : Memory} {lo : Nat} (ha : a ≤ 255) (hv : v ≠ 0) (hlo : lo ≤ a)
    (hne : ∀ c ∈ m, c.1 ≠ a) (h : Memory.wfFrom lo m = true) : Memory.wfFrom lo (Memory.putCell a v m) = true := by
  induction m generalizing lo with
  | nil => exact (Memory.wfFrom_cons lo a v []).mpr ⟨hlo, ha, hv, rfl⟩
  | cons c m ih =>
    obtain ⟨k, w⟩ := c
    rw [Memory.wfFrom_cons] at h
    obtain ⟨h1, h2, h3, h4⟩ := h
    have hk : k ≠ a := hne (k, w) (by simp)
    simp only [Memory.putCell]
    split
    · rw [Memory.wfFrom_cons, Memory.wfFrom_cons]
      exact ⟨hlo, ha, hv, by omega, h2, h3, h4⟩
    · rw [Memory.wfFrom_cons]
      exact ⟨h1, h2, h3, ih (by omega) (fun c hc => hne c (List.mem_cons_of_mem _ hc)) h4⟩

/-- A write below address 256 keeps the canonical form (log 4). -/
theorem Memory.write_wf {m : Memory} {a : Nat} (v : Byte) (ha : a ≤ 255) (h : m.wf = true) :
    (m.write a v).wf = true := by
  unfold Memory.write
  split
  · exact Memory.dropCell_wfFrom a h
  · rename_i hv
    exact Memory.putCell_wfFrom ha hv (Nat.zero_le a) (m.dropCell_no_key a) (Memory.dropCell_wfFrom a h)

/-- The memory interface keeps the canonical form (20_memory.md R51; log 4). -/
theorem memWrite_wf {a : Nat} {v : Byte} {s t : State} (h : memWrite a v s = .ok t) (hs : s.mem.wf = true) :
    t.mem.wf = true := by
  unfold memWrite at h
  split at h
  · cases h
  · rename_i ha
    cases h
    exact Memory.write_wf v (by simpa [Config.lastAddress] using ha) hs

/-- Placing the host's word keeps the canonical form (log 9). -/
theorem storeBytes_wf (bs : List Byte) : ∀ (a : Nat) (m : Memory), m.wf = true → (storeBytes a bs m).wf = true := by
  induction bs with
  | nil => intro a m h; exact h
  | cons b bs ih =>
    intro a m h
    simp only [storeBytes]
    split
    · rename_i ha
      exact ih _ _ (Memory.write_wf b ha h)
    · exact ih _ _ h

/-- Writing an image that fits keeps the canonical form (70_reset_and_hazards.md R232). -/
theorem Memory.writeImage_wf (bs : List Byte) :
    ∀ (a : Nat) (m : Memory), a + bs.length ≤ 256 → m.wf = true → (Memory.writeImage a bs m).wf = true := by
  induction bs with
  | nil => intro a m _ h; exact h
  | cons b bs ih =>
    intro a m ha h
    simp only [List.length_cons] at ha
    exact ih _ _ (by omega) (Memory.write_wf b (by omega) h)

theorem State.reset_mem_wf : State.reset.mem.wf = true := rfl

end Sys2Proof.Machine
end

