-- ==== Sys2Proof/Laws/State.lean ====
section
/-! SUPPORT. The small lemmas of State: one per field and update, and reading a register after a write. -/

namespace Sys2Proof.Machine

section setReg
variable (s : State) (i : RegIdx) (v : Byte)

@[simp] theorem State.setReg_x : (s.setReg i v).x = s.x.set i v := rfl
@[simp] theorem State.setReg_fl : (s.setReg i v).fl = s.fl := rfl
@[simp] theorem State.setReg_pc : (s.setReg i v).pc = s.pc := rfl
@[simp] theorem State.setReg_mem : (s.setReg i v).mem = s.mem := rfl
@[simp] theorem State.setReg_run : (s.setReg i v).run = s.run := rfl
@[simp] theorem State.setReg_fault : (s.setReg i v).fault = s.fault := rfl
@[simp] theorem State.setReg_out : (s.setReg i v).out = s.out := rfl

@[simp] theorem State.reg_setReg_self : (s.setReg i v).reg i = v := by
  simp [State.reg, State.setReg]

theorem State.reg_setReg (j : RegIdx) : (s.setReg i v).reg j = if j = i then v else s.reg j := by
  simp only [State.reg, State.setReg, Fin.getElem_fin, Vector.getElem_set, Fin.ext_iff]
  split <;> split <;> first | rfl | omega

theorem State.reg_setReg_ne {j : RegIdx} (h : j ≠ i) : (s.setReg i v).reg j = s.reg j := by
  rw [State.reg_setReg, if_neg h]

end setReg

section raiseFault
variable (s : State) (f : FaultRecord)

@[simp] theorem State.raiseFault_x : (s.raiseFault f).x = s.x := rfl
@[simp] theorem State.raiseFault_fl : (s.raiseFault f).fl = s.fl := rfl
@[simp] theorem State.raiseFault_pc : (s.raiseFault f).pc = s.pc := rfl
@[simp] theorem State.raiseFault_mem : (s.raiseFault f).mem = s.mem := rfl
@[simp] theorem State.raiseFault_run : (s.raiseFault f).run = .faulted := rfl
@[simp] theorem State.raiseFault_fault : (s.raiseFault f).fault = some f := rfl
@[simp] theorem State.raiseFault_out : (s.raiseFault f).out = s.out := rfl

end raiseFault

section emit
variable (s : State) (e : OutEvent)

@[simp] theorem State.emit_x : (s.emit e).x = s.x := rfl
@[simp] theorem State.emit_fl : (s.emit e).fl = s.fl := rfl
@[simp] theorem State.emit_pc : (s.emit e).pc = s.pc := rfl
@[simp] theorem State.emit_mem : (s.emit e).mem = s.mem := rfl
@[simp] theorem State.emit_run : (s.emit e).run = s.run := rfl
@[simp] theorem State.emit_fault : (s.emit e).fault = s.fault := rfl
@[simp] theorem State.emit_out : (s.emit e).out = s.out ++ [e] := rfl

end emit

/-- The stack pointer is R7 (10_state.md R23). -/
theorem spIndex_eq : spIndex = 7 := rfl

section stackPointer
variable (s : State)

@[simp] theorem State.decSp_x : s.decSp.x = s.x.set spIndex (trunc8 (s.sp.toNat + 255)) := rfl
@[simp] theorem State.decSp_fl : s.decSp.fl = s.fl := rfl
@[simp] theorem State.decSp_pc : s.decSp.pc = s.pc := rfl
@[simp] theorem State.decSp_mem : s.decSp.mem = s.mem := rfl
@[simp] theorem State.decSp_run : s.decSp.run = s.run := rfl
@[simp] theorem State.decSp_fault : s.decSp.fault = s.fault := rfl
@[simp] theorem State.decSp_out : s.decSp.out = s.out := rfl
@[simp] theorem State.incSp_x : s.incSp.x = s.x.set spIndex (trunc8 (s.sp.toNat + 1)) := rfl
@[simp] theorem State.incSp_fl : s.incSp.fl = s.fl := rfl
@[simp] theorem State.incSp_pc : s.incSp.pc = s.pc := rfl
@[simp] theorem State.incSp_mem : s.incSp.mem = s.mem := rfl
@[simp] theorem State.incSp_run : s.incSp.run = s.run := rfl
@[simp] theorem State.incSp_fault : s.incSp.fault = s.fault := rfl
@[simp] theorem State.incSp_out : s.incSp.out = s.out := rfl

@[simp] theorem State.sp_decSp : s.decSp.sp = trunc8 (s.sp.toNat + 255) := State.reg_setReg_self s spIndex _
@[simp] theorem State.sp_incSp : s.incSp.sp = trunc8 (s.sp.toNat + 1) := State.reg_setReg_self s spIndex _

end stackPointer

section advance
variable (ir : Byte) (s : State)

@[simp] theorem State.advance_x : (s.advance ir).x = s.x := by unfold State.advance; split <;> rfl
@[simp] theorem State.advance_fl : (s.advance ir).fl = s.fl := by unfold State.advance; split <;> rfl
@[simp] theorem State.advance_mem : (s.advance ir).mem = s.mem := by unfold State.advance; split <;> rfl
@[simp] theorem State.advance_run : (s.advance ir).run = s.run := by unfold State.advance; split <;> rfl
@[simp] theorem State.advance_fault : (s.advance ir).fault = s.fault := by unfold State.advance; split <;> rfl
@[simp] theorem State.advance_out : (s.advance ir).out = s.out := by unfold State.advance; split <;> rfl

/-- The sets-PC bit alone decides whether pc advances, and by how much (40_sequencer.md R105). -/
theorem State.advance_pc : (s.advance ir).pc = if setsPcBit ir then s.pc else s.pc + operandCount ir + 1 := by
  unfold State.advance; split <;> rfl

theorem State.advance_of_setsPc {ir : Byte} (h : setsPcBit ir = true) : s.advance ir = s := by
  simp [State.advance, h]

theorem State.advance_of_not_setsPc {ir : Byte} (h : setsPcBit ir = false) :
    s.advance ir = { s with pc := s.pc + operandCount ir + 1 } := by
  simp [State.advance, h]

end advance

end Sys2Proof.Machine
end

