-- ==== Sys2Proof/Laws/Ops.lean ====
section
/-! SUPPORT. What each shared operation can do, said once: operands, the memory interface, push, and completion. -/

namespace Sys2Proof.Machine

@[simp] theorem except_ok_bind {ε α β : Type} (a : α) (k : α → Except ε β) : (Except.ok a >>= k) = k a := rfl

@[simp] theorem except_error_bind {ε α β : Type} (e : ε) (k : α → Except ε β) :
    ((Except.error e : Except ε α) >>= k) = Except.error e := rfl

@[simp] theorem trunc8_toNat (v : Nat) : (trunc8 v).toNat = v % 256 := by simp [trunc8]

@[simp] theorem regByte_toNat (r : RegIdx) : (regByte r).toNat = r.val := by
  simp [regByte, Nat.mod_eq_of_lt (by omega : r.val < 256)]

/-- A legal operand byte names its register (30_encoding.md R74). -/
@[simp] theorem reg_regByte (r : RegIdx) : reg (regByte r) = .ok r := by
  simp [reg]

theorem reg_legal {op : Byte} (h : op.toNat ≤ 7) : reg op = .ok ⟨op.toNat, by omega⟩ := by
  rw [reg, dif_pos (by omega)]

theorem reg_illegal {op : Byte} (h : 7 < op.toNat) : reg op = .error ⟨.illegalRegister, op.toNat⟩ := by
  rw [reg, dif_neg (by omega)]

/-- The two outcomes of the legality check. -/
theorem reg_cases (op : Byte) :
    (∃ r : RegIdx, op = regByte r ∧ reg op = .ok r) ∨
    (7 < op.toNat ∧ reg op = .error ⟨.illegalRegister, op.toNat⟩) := by
  by_cases h : op.toNat ≤ 7
  · refine .inl ⟨⟨op.toNat, by omega⟩, ?_, reg_legal h⟩
    apply BitVec.eq_of_toNat_eq
    simp [regByte]
  · exact .inr ⟨by omega, reg_illegal (by omega)⟩

theorem memRead_ok {a : Nat} (s : State) (h : a ≤ 255) : memRead a s = .ok (s.mem.read a) := by
  rw [memRead, if_neg (by simpa [Config.lastAddress] using h)]

theorem memRead_error {a : Nat} (s : State) (h : 255 < a) : memRead a s = .error ⟨.outOfRange, a⟩ := by
  rw [memRead, if_pos (by simpa [Config.lastAddress] using h)]

theorem memWrite_ok {a : Nat} (v : Byte) (s : State) (h : a ≤ 255) :
    memWrite a v s = .ok { s with mem := s.mem.write a v } := by
  rw [memWrite, if_neg (by simpa [Config.lastAddress] using h)]

theorem memWrite_error {a : Nat} (v : Byte) (s : State) (h : 255 < a) :
    memWrite a v s = .error ⟨.outOfRange, a⟩ := by
  rw [memWrite, if_pos (by simpa [Config.lastAddress] using h)]

/-- A data access takes its address from a byte, so it is always in range (20_memory.md R53). -/
@[simp] theorem memRead_byte (b : Byte) (s : State) : memRead b.toNat s = .ok (s.mem.read b.toNat) :=
  memRead_ok s (by have := b.isLt; omega)

@[simp] theorem memWrite_byte (b v : Byte) (s : State) :
    memWrite b.toNat v s = .ok { s with mem := s.mem.write b.toNat v } :=
  memWrite_ok v s (by have := b.isLt; omega)

/-- A push always completes: SP moves down by one and one byte is stored there (42_data_movement.md R153). -/
@[simp] theorem push_ok (v : State → Byte) (s : State) :
    push v s = .ok { s.decSp with mem := s.mem.write (pushAddress s) (v s.decSp) } := by
  rw [push, pushAddress, memWrite_byte]; rfl

theorem pushAddress_eq (s : State) : pushAddress s = (s.sp.toNat + 255) % 256 := by
  simp [pushAddress]

@[simp] theorem complete_ok (ir : Byte) (s t : State) : complete ir s (.ok t) = .next (t.advance ir) := rfl

@[simp] theorem complete_error (ir : Byte) (s : State) (f : FaultRecord) :
    complete ir s (.error f) = .next (s.raiseFault f) := rfl

/-- An instruction completes with its writes or raises a fault in the state before it (40_sequencer.md R107). -/
theorem complete_cases {ir : Byte} {s t : State} {r : Except FaultRecord State} (h : complete ir s r = .next t) :
    (∃ u, r = .ok u ∧ t = u.advance ir) ∨ (∃ f, r = .error f ∧ t = s.raiseFault f) := by
  cases r with
  | ok u => exact .inl ⟨u, rfl, by simpa using h.symm⟩
  | error f => exact .inr ⟨f, rfl, by simpa using h.symm⟩

/-- Completion never stops the machine. -/
theorem complete_next (ir : Byte) (s : State) (r : Except FaultRecord State) : ∃ t, complete ir s r = .next t := by
  cases r <;> exact ⟨_, rfl⟩

end Sys2Proof.Machine
end

