-- ==== Sys2Proof/Laws/Meanings.lean ====
section
/-! SUPPORT. What the operations shared by several instructions do on legal and illegal operands, and what a step does. -/

namespace Sys2Proof.Machine

section alu
variable (ir : Byte) (f : Byte → Byte → Byte) (g : Byte → Byte) (s : State)

theorem aluBinary_legal (a b : RegIdx) :
    aluBinary ir f (regByte a) (regByte b) s = .next ((s.setReg a (f (s.reg a) (s.reg b))).advance ir) := by
  simp [aluBinary]

theorem aluBinary_illegal_first {op1 : Byte} (op2 : Byte) (h : 7 < op1.toNat) :
    aluBinary ir f op1 op2 s = .next (s.raiseFault ⟨.illegalRegister, op1.toNat⟩) := by
  simp [aluBinary, reg_illegal h]

theorem aluBinary_illegal_second {op1 op2 : Byte} (h1 : op1.toNat ≤ 7) (h2 : 7 < op2.toNat) :
    aluBinary ir f op1 op2 s = .next (s.raiseFault ⟨.illegalRegister, op2.toNat⟩) := by
  simp [aluBinary, reg_legal h1, reg_illegal h2]

theorem aluUnary_legal (a : RegIdx) :
    aluUnary ir g (regByte a) s = .next ((s.setReg a (g (s.reg a))).advance ir) := by
  simp [aluUnary]

theorem aluUnary_illegal {op1 : Byte} (h : 7 < op1.toNat) :
    aluUnary ir g op1 s = .next (s.raiseFault ⟨.illegalRegister, op1.toNat⟩) := by
  simp [aluUnary, reg_illegal h]

end alu

section output
variable (ir : Byte) (kind : Byte → OutEvent) (s : State)

theorem output_legal (a : RegIdx) :
    output ir kind (regByte a) s = .next ((s.emit (kind (s.reg a))).advance ir) := by
  simp [output]

theorem output_illegal {op1 : Byte} (h : 7 < op1.toNat) :
    output ir kind op1 s = .next (s.raiseFault ⟨.illegalRegister, op1.toNat⟩) := by
  simp [output, reg_illegal h]

end output

section jump
variable (ir : Byte) (cond : Byte → Bool) (s : State)

theorem jumpIf_legal (a : RegIdx) :
    jumpIf ir cond (regByte a) s =
      .next (State.advance ir { s with pc := if cond s.fl then (s.reg a).toNat else s.pc + 2 }) := by
  simp [jumpIf]

theorem jumpIf_illegal {op1 : Byte} (h : 7 < op1.toNat) :
    jumpIf ir cond op1 s = .next (s.raiseFault ⟨.illegalRegister, op1.toNat⟩) := by
  simp [jumpIf, reg_illegal h]

end jump

/-- Every instruction answers a next state in every state: no instruction stops the model (60_exceptions.md R207). -/
theorem exec_next (i : Instr) (s : State) : ∃ t, exec i s = .next t := by
  cases i <;> first | exact complete_next _ _ _ | exact ⟨_, rfl⟩

/-- The cases of a step that answers a next state (40_sequencer.md R110). -/
theorem step_cases {s t : State} (h : step s = .next t) :
    s.run = .running ∧
      ((∃ i, fetchDecode s = .ok i ∧ exec i s = .next t) ∨ (∃ f, fetchDecode s = .error f ∧ t = s.raiseFault f)) := by
  unfold step at h
  cases hr : s.run with
  | running =>
    rw [hr] at h
    refine ⟨rfl, ?_⟩
    cases hf : fetchDecode s with
    | ok i => rw [hf] at h; exact .inl ⟨i, rfl, h⟩
    | error f => rw [hf] at h; exact .inr ⟨f, rfl, by simpa using h.symm⟩
  | halted => rw [hr] at h; cases h
  | faulted => rw [hr] at h; cases h

/-- The bytes at pc: none, one, two or three, by how far pc is from the end of memory (30_encoding.md R70). -/
theorem codeBytes_cases (s : State) :
    (255 < s.pc ∧ codeBytes s = []) ∨ (s.pc = 255 ∧ codeBytes s = [s.mem.read s.pc]) ∨
    (s.pc = 254 ∧ codeBytes s = [s.mem.read s.pc, s.mem.read (s.pc + 1)]) ∨
    (s.pc ≤ 253 ∧ codeBytes s = [s.mem.read s.pc, s.mem.read (s.pc + 1), s.mem.read (s.pc + 2)]) := by
  unfold codeBytes
  have hlast : Config.lastAddress + 1 = 256 := rfl
  rw [hlast]
  rcases (by omega : 255 < s.pc ∨ s.pc = 255 ∨ s.pc = 254 ∨ s.pc ≤ 253) with h | h | h | h
  · exact .inl ⟨h, by rw [show min 3 (256 - s.pc) = 0 by omega]; rfl⟩
  · exact .inr (.inl ⟨h, by rw [show min 3 (256 - s.pc) = 1 by omega]; rfl⟩)
  · exact .inr (.inr (.inl ⟨h, by rw [show min 3 (256 - s.pc) = 2 by omega]; rfl⟩))
  · exact .inr (.inr (.inr ⟨h, by rw [show min 3 (256 - s.pc) = 3 by omega]; rfl⟩))

/-- Fetch and decode of a legal opcode byte: what remains is the operand fetch (40_sequencer.md R103). -/
theorem fetchDecode_legal {s : State} {o : Opcode} (hp : s.pc ≤ 255) (h : s.mem.read s.pc = o.byte) :
    fetchDecode s = (do
      let op1 ← fetchOperand s o.byte 1
      let op2 ← fetchOperand s o.byte 2
      .ok (o.instr op1 op2)) := by
  simp [fetchDecode, memRead_ok s hp, h, decodeStage]

/-- An operand fetch of an instruction whose last byte is at 255 or below (40_sequencer.md R103). -/
theorem fetchOperand_fits {s : State} {ir : Byte} (k : Nat) (h : s.pc + operandCount ir ≤ 255) :
    fetchOperand s ir k = .ok (if k ≤ operandCount ir then s.mem.read (s.pc + k) else 0) := by
  unfold fetchOperand
  split
  · rw [memRead_ok s (by omega)]
  · rfl

/-- A row uses only as many operand bytes as its operand count (30_encoding.md R77). -/
theorem instr_of_counted_operands (o : Opcode) (x y : Byte) :
    o.instr (if 1 ≤ operandCount o.byte then x else 0) (if 2 ≤ operandCount o.byte then y else 0) = o.instr x y := by
  cases o <;> rfl

/-- An instruction whose last byte is at 255 or below is fetched whole (40_sequencer.md R103). -/
theorem fetchDecode_fits {s : State} {o : Opcode} (h : s.mem.read s.pc = o.byte)
    (hp : s.pc + operandCount o.byte ≤ 255) :
    fetchDecode s = .ok (o.instr (s.mem.read (s.pc + 1)) (s.mem.read (s.pc + 2))) := by
  rw [fetchDecode_legal (by omega) h, fetchOperand_fits 1 hp, fetchOperand_fits 2 hp, except_ok_bind, except_ok_bind,
    instr_of_counted_operands]

/-- An instruction that crosses the end of memory faults at address 256 (40_sequencer.md R103, 60_exceptions.md R201). -/
theorem fetchDecode_crosses {s : State} {o : Opcode} (h : s.mem.read s.pc = o.byte) (hp : s.pc ≤ 255)
    (hc : 255 < s.pc + operandCount o.byte) : fetchDecode s = .error ⟨.outOfRange, 256⟩ := by
  rw [fetchDecode_legal hp h]
  have hn := operandCount_byte_le o
  by_cases h1 : s.pc = 255
  · rw [fetchOperand, if_pos (by omega), memRead_error s (by omega), h1]; rfl
  · have h2 : operandCount o.byte = 2 := by omega
    have h3 : s.pc = 254 := by omega
    rw [fetchOperand, if_pos (by omega), memRead_ok s (by omega), except_ok_bind, fetchOperand, if_pos (by omega),
      memRead_error s (by omega), h3]
    rfl

/-- Fetch and decode of an illegal opcode byte (30_encoding.md R78). -/
theorem fetchDecode_illegal {s : State} {e : OpcodeError} (hp : s.pc ≤ 255)
    (h : decodeOpcode (s.mem.read s.pc) = .error e) :
    fetchDecode s = .error (illegalOpcodeRecord (s.mem.read s.pc) e) := by
  simp [fetchDecode, memRead_ok s hp, decodeStage, h]

/-- Fetch above address 255 (40_sequencer.md R101). -/
theorem fetchDecode_pastEnd {s : State} (h : 255 < s.pc) : fetchDecode s = .error ⟨.outOfRange, s.pc⟩ := by
  simp [fetchDecode, memRead_error s h]

theorem step_of_fetchDecode_ok {s : State} {i : Instr} (hr : s.run = .running) (h : fetchDecode s = .ok i) :
    step s = exec i s := by
  simp [step, hr, h]

theorem step_of_fetchDecode_error {s : State} {f : FaultRecord} (hr : s.run = .running)
    (h : fetchDecode s = .error f) : step s = .next (s.raiseFault f) := by
  simp [step, hr, h]

end Sys2Proof.Machine
end

