-- ==== Sys2Proof/Laws/Exec.lean ====
section
/-! SUPPORT. What executing an instruction can do, said once for all instructions: raise one of three faults, halt, or complete
with its own writes and then the advance. -/

namespace Sys2Proof.Machine

/-- The writes `u` an instruction `i` other than HLT makes in `s` when it completes, before the advance. -/
structure Completes (i : Instr) (s u : State) : Prop where
  run : u.run = s.run
  fault : u.fault = s.fault
  /-- Without the sets-PC bit, pc is left to the advance (40_sequencer.md R105). -/
  pc_keep : setsPcBit i.opcodeByte = false → u.pc = s.pc
  /-- With it, pc is a byte or the address after the operand (43_control_transfer.md R176). -/
  pc_set : setsPcBit i.opcodeByte = true → u.pc ≤ 255 ∨ u.pc = s.pc + 2 ∧ operandCount i.opcodeByte = 1
  mem_wf : s.mem.wf = true → u.mem.wf = true
  fl : u.fl = s.fl ∨ i.parts.1 = .cmp ∧ ∃ v w, u.fl = compareFlags v w

/-- The completion of an instruction whose sets-PC bit is 0. -/
theorem Completes.leaving_pc {i : Instr} {s u : State} (hrun : u.run = s.run)
    (hfault : u.fault = s.fault) (hpc : u.pc = s.pc) (hmem : s.mem.wf = true → u.mem.wf = true)
    (hfl : u.fl = s.fl ∨ i.parts.1 = .cmp ∧ ∃ v w, u.fl = compareFlags v w)
    (hbit : setsPcBit i.opcodeByte = false := by simp [setsPcBit, Instr.opcodeByte, Instr.parts, Opcode.byte]) :
    Completes i s u :=
  ⟨hrun, hfault, fun _ => hpc, fun h => by simp [hbit] at h, hmem, hfl⟩

/-- The completion of an instruction whose sets-PC bit is 1. -/
theorem Completes.setting_pc {i : Instr} {s u : State} (hrun : u.run = s.run)
    (hfault : u.fault = s.fault) (hpc : u.pc ≤ 255 ∨ u.pc = s.pc + 2 ∧ operandCount i.opcodeByte = 1)
    (hmem : s.mem.wf = true → u.mem.wf = true) (hfl : u.fl = s.fl)
    (hbit : setsPcBit i.opcodeByte = true := by simp [setsPcBit, Instr.opcodeByte, Instr.parts, Opcode.byte]) :
    Completes i s u :=
  ⟨hrun, hfault, fun h => by simp [hbit] at h, fun _ => hpc, hmem, .inl hfl⟩

/-- The three ways an instruction ends (40_sequencer.md R107, R109, 60_exceptions.md R202). -/
theorem exec_cases (i : Instr) (s : State) :
    (∃ f, exec i s = .next (s.raiseFault f) ∧ f.code ∈ [.illegalRegister, .divideByZero, .callReturnOverflow]) ∨
    (i = .hlt ∧ exec i s = .next { s with run := .halted }) ∨
    (i ≠ .hlt ∧ ∃ u, exec i s = .next (u.advance i.opcodeByte) ∧ Completes i s u) := by
  have byte_le (b : Byte) : b.toNat ≤ 255 := by have := b.isLt; omega
  cases i
  case hlt => exact .inr (.inl ⟨rfl, rfl⟩)
  case nop =>
    exact .inr (.inr ⟨by simp, s, rfl, .leaving_pc rfl rfl rfl id (.inl rfl)⟩)
  case ret =>
    refine .inr (.inr ⟨by simp, _, by simp only [exec, execRet, memRead_byte, except_ok_bind, complete_ok]; rfl, ?_⟩)
    exact .setting_pc rfl rfl (.inl (byte_le _)) id rfl
  case jmp op1 | jeq op1 | jne op1 | jle op1 =>
    simp only [exec, execJmp, execJeq, execJne, execJle, jumpIf]
    rcases reg_cases op1 with ⟨a, -, e⟩ | ⟨-, e⟩ <;> simp only [e, except_ok_bind, except_error_bind, complete_error]
    · refine .inr (.inr ⟨by simp, _, by rw [complete_ok]; rfl, ?_⟩)
      refine .setting_pc rfl rfl ?_ id rfl
      dsimp only
      split
      · exact .inl (byte_le _)
      · exact .inr ⟨rfl, by simp [operandCount, Instr.opcodeByte, Instr.parts, Opcode.byte]⟩
    · exact .inl ⟨_, rfl, by simp⟩
  case call op1 =>
    simp only [exec, execCall]
    rcases reg_cases op1 with ⟨a, -, e⟩ | ⟨-, e⟩ <;> simp only [e, except_ok_bind, except_error_bind, complete_error]
    · split
      · exact .inl ⟨_, rfl, by simp⟩
      · refine .inr (.inr ⟨by simp, _, by simp only [push_ok, except_ok_bind, complete_ok]; rfl, ?_⟩)
        exact .setting_pc rfl rfl (.inl (byte_le _)) (Memory.write_wf _ (byte_le _)) rfl
    · exact .inl ⟨_, rfl, by simp⟩
  case push op1 | pop op1 | prn op1 | pra op1 | inc op1 | dec op1 | not op1 | ldi op1 imm =>
    simp only [exec, execPush, execPop, execPrn, execPra, execInc, execDec, execNot, execLdi, output, aluUnary]
    rcases reg_cases op1 with ⟨a, -, e⟩ | ⟨-, e⟩ <;>
      simp only [e, memRead_byte, push_ok, except_ok_bind, except_error_bind, complete_ok, complete_error]
    · refine .inr (.inr ⟨by simp, _, rfl, .leaving_pc rfl rfl rfl ?_ (.inl rfl)⟩)
      first | exact id | exact Memory.write_wf _ (byte_le _)
    · exact .inl ⟨_, rfl, by simp⟩
  case mod op1 op2 =>
    simp only [exec, execMod]
    rcases reg_cases op1 with ⟨a, -, e⟩ | ⟨-, e⟩ <;> rcases reg_cases op2 with ⟨b, -, e'⟩ | ⟨-, e'⟩ <;>
      simp only [e, e', except_ok_bind, except_error_bind, complete_error]
    · split
      · exact .inl ⟨_, rfl, by simp⟩
      · exact .inr (.inr ⟨by simp, _, rfl, .leaving_pc rfl rfl rfl id (.inl rfl)⟩)
    all_goals exact .inl ⟨_, rfl, by simp⟩
  case cmp op1 op2 =>
    simp only [exec, execCmp]
    rcases reg_cases op1 with ⟨a, -, e⟩ | ⟨-, e⟩ <;> rcases reg_cases op2 with ⟨b, -, e'⟩ | ⟨-, e'⟩ <;>
      simp only [e, e', except_ok_bind, except_error_bind, complete_error]
    · exact .inr (.inr ⟨by simp, _, rfl, .leaving_pc rfl rfl rfl id (.inr ⟨rfl, _, _, rfl⟩)⟩)
    all_goals exact .inl ⟨_, rfl, by simp⟩
  all_goals
    rename_i op1 op2
    simp only [exec, execLd, execSt, execAdd, execMul, execAnd, execOr, execXor, execShl, execShr, aluBinary]
    rcases reg_cases op1 with ⟨a, -, e⟩ | ⟨-, e⟩ <;> rcases reg_cases op2 with ⟨b, -, e'⟩ | ⟨-, e'⟩ <;>
      simp only [e, e', memRead_byte, memWrite_byte, except_ok_bind, except_error_bind, complete_ok, complete_error]
    · refine .inr (.inr ⟨by simp, _, rfl, .leaving_pc rfl rfl rfl ?_ (.inl rfl)⟩)
      first | exact id | exact Memory.write_wf _ (byte_le _)
    all_goals exact .inl ⟨_, rfl, by simp⟩

/-- The opcode byte of a row's instruction is the row's byte (30_encoding.md R76). -/
@[simp] theorem opcodeByte_instr (o : Opcode) (x y : Byte) : (o.instr x y).opcodeByte = o.byte := by
  cases o <;> rfl

/-- A fetched instruction stands at pc and lies wholly below address 256 (40_sequencer.md R103, R105). -/
theorem fetchDecode_eq_ok {s : State} {i : Instr} (h : fetchDecode s = .ok i) :
    s.mem.read s.pc = i.opcodeByte ∧ s.pc + operandCount i.opcodeByte ≤ 255 := by
  by_cases hp : s.pc ≤ 255
  · cases ho : decodeOpcode (s.mem.read s.pc) with
    | error e => rw [fetchDecode_illegal hp ho] at h; cases h
    | ok o =>
      have hb := (decodeOpcode_eq_ok ho).symm
      by_cases hc : s.pc + operandCount o.byte ≤ 255
      · rw [fetchDecode_fits hb hc] at h
        cases h
        rw [opcodeByte_instr]
        exact ⟨hb, hc⟩
      · rw [fetchDecode_crosses hb hp (by omega)] at h; cases h
  · rw [fetchDecode_pastEnd (by omega)] at h; cases h

end Sys2Proof.Machine
end

