-- ==== Sys2Proof/Laws/PerInstr.lean ====
section
/-! SUPPORT. Facts about every instruction as syntax, one lemma per constructor of Instr. -/

namespace Sys2Proof.Laws

/-- The opcode byte's bits 7:6 count the operand bytes of the instruction (30_encoding.md R77). -/
def OperandBytes.Statement (i : Instr) : Prop := operandCount i.opcodeByte = i.parts.2.length

theorem OperandBytes.nop : OperandBytes.Statement (.nop) := by simp [OperandBytes.Statement, Instr.opcodeByte, Instr.parts, Opcode.byte, operandCount]
theorem OperandBytes.hlt : OperandBytes.Statement (.hlt) := by simp [OperandBytes.Statement, Instr.opcodeByte, Instr.parts, Opcode.byte, operandCount]
theorem OperandBytes.ret : OperandBytes.Statement (.ret) := by simp [OperandBytes.Statement, Instr.opcodeByte, Instr.parts, Opcode.byte, operandCount]
theorem OperandBytes.push (op1 : Byte) : OperandBytes.Statement (.push op1) := by simp [OperandBytes.Statement, Instr.opcodeByte, Instr.parts, Opcode.byte, operandCount]
theorem OperandBytes.pop (op1 : Byte) : OperandBytes.Statement (.pop op1) := by simp [OperandBytes.Statement, Instr.opcodeByte, Instr.parts, Opcode.byte, operandCount]
theorem OperandBytes.prn (op1 : Byte) : OperandBytes.Statement (.prn op1) := by simp [OperandBytes.Statement, Instr.opcodeByte, Instr.parts, Opcode.byte, operandCount]
theorem OperandBytes.pra (op1 : Byte) : OperandBytes.Statement (.pra op1) := by simp [OperandBytes.Statement, Instr.opcodeByte, Instr.parts, Opcode.byte, operandCount]
theorem OperandBytes.call (op1 : Byte) : OperandBytes.Statement (.call op1) := by simp [OperandBytes.Statement, Instr.opcodeByte, Instr.parts, Opcode.byte, operandCount]
theorem OperandBytes.jmp (op1 : Byte) : OperandBytes.Statement (.jmp op1) := by simp [OperandBytes.Statement, Instr.opcodeByte, Instr.parts, Opcode.byte, operandCount]
theorem OperandBytes.jeq (op1 : Byte) : OperandBytes.Statement (.jeq op1) := by simp [OperandBytes.Statement, Instr.opcodeByte, Instr.parts, Opcode.byte, operandCount]
theorem OperandBytes.jne (op1 : Byte) : OperandBytes.Statement (.jne op1) := by simp [OperandBytes.Statement, Instr.opcodeByte, Instr.parts, Opcode.byte, operandCount]
theorem OperandBytes.jle (op1 : Byte) : OperandBytes.Statement (.jle op1) := by simp [OperandBytes.Statement, Instr.opcodeByte, Instr.parts, Opcode.byte, operandCount]
theorem OperandBytes.inc (op1 : Byte) : OperandBytes.Statement (.inc op1) := by simp [OperandBytes.Statement, Instr.opcodeByte, Instr.parts, Opcode.byte, operandCount]
theorem OperandBytes.dec (op1 : Byte) : OperandBytes.Statement (.dec op1) := by simp [OperandBytes.Statement, Instr.opcodeByte, Instr.parts, Opcode.byte, operandCount]
theorem OperandBytes.not (op1 : Byte) : OperandBytes.Statement (.not op1) := by simp [OperandBytes.Statement, Instr.opcodeByte, Instr.parts, Opcode.byte, operandCount]
theorem OperandBytes.ldi (op1 imm : Byte) : OperandBytes.Statement (.ldi op1 imm) := by simp [OperandBytes.Statement, Instr.opcodeByte, Instr.parts, Opcode.byte, operandCount]
theorem OperandBytes.ld (op1 op2 : Byte) : OperandBytes.Statement (.ld op1 op2) := by simp [OperandBytes.Statement, Instr.opcodeByte, Instr.parts, Opcode.byte, operandCount]
theorem OperandBytes.st (op1 op2 : Byte) : OperandBytes.Statement (.st op1 op2) := by simp [OperandBytes.Statement, Instr.opcodeByte, Instr.parts, Opcode.byte, operandCount]
theorem OperandBytes.add (op1 op2 : Byte) : OperandBytes.Statement (.add op1 op2) := by simp [OperandBytes.Statement, Instr.opcodeByte, Instr.parts, Opcode.byte, operandCount]
theorem OperandBytes.mul (op1 op2 : Byte) : OperandBytes.Statement (.mul op1 op2) := by simp [OperandBytes.Statement, Instr.opcodeByte, Instr.parts, Opcode.byte, operandCount]
theorem OperandBytes.mod (op1 op2 : Byte) : OperandBytes.Statement (.mod op1 op2) := by simp [OperandBytes.Statement, Instr.opcodeByte, Instr.parts, Opcode.byte, operandCount]
theorem OperandBytes.cmp (op1 op2 : Byte) : OperandBytes.Statement (.cmp op1 op2) := by simp [OperandBytes.Statement, Instr.opcodeByte, Instr.parts, Opcode.byte, operandCount]
theorem OperandBytes.and (op1 op2 : Byte) : OperandBytes.Statement (.and op1 op2) := by simp [OperandBytes.Statement, Instr.opcodeByte, Instr.parts, Opcode.byte, operandCount]
theorem OperandBytes.or (op1 op2 : Byte) : OperandBytes.Statement (.or op1 op2) := by simp [OperandBytes.Statement, Instr.opcodeByte, Instr.parts, Opcode.byte, operandCount]
theorem OperandBytes.xor (op1 op2 : Byte) : OperandBytes.Statement (.xor op1 op2) := by simp [OperandBytes.Statement, Instr.opcodeByte, Instr.parts, Opcode.byte, operandCount]
theorem OperandBytes.shl (op1 op2 : Byte) : OperandBytes.Statement (.shl op1 op2) := by simp [OperandBytes.Statement, Instr.opcodeByte, Instr.parts, Opcode.byte, operandCount]
theorem OperandBytes.shr (op1 op2 : Byte) : OperandBytes.Statement (.shr op1 op2) := by simp [OperandBytes.Statement, Instr.opcodeByte, Instr.parts, Opcode.byte, operandCount]

end Sys2Proof.Laws
end

