-- ==== Sys2Proof/Tests/Slice0.lean ====
section
/-! SUPPORT. The model's own tests: ill-formed terms are refused, words written out from 30_encoding.md R76 decode, one step per
instruction against the vectors of 95_test_vectors.md, and a witness for the hypotheses of each obligation that has some. -/

namespace Sys2Proof.Tests
open Sys2Proof Sys2Proof.Machine

/-! ### Well-formedness: a term with an illegal register operand in each place (30_encoding.md R74, R79) -/

theorem test_wf_refuses_illegal_only_operand : (Instr.push 8).wellFormed = false := by decide
theorem test_wf_refuses_illegal_first_operand : (Instr.add 8 0).wellFormed = false := by decide
theorem test_wf_refuses_illegal_second_operand : (Instr.add 0 255).wellFormed = false := by decide
theorem test_wf_refuses_illegal_ldi_operand : (Instr.ldi 8 0).wellFormed = false := by decide
theorem test_wf_takes_any_immediate : (Instr.ldi 7 255).wellFormed = true := by decide
theorem test_wf_takes_last_register : (Instr.st 7 7).wellFormed = true := by decide

/-! ### Decoding: a word of every row, bit by bit from 30_encoding.md R76, numbered as spec/opcode_table.json numbers bits -/

theorem test_decode_sequencer : decodeTableWord 8 0b00000000 = some .nop ∧ decodeTableWord 8 0b00000001 = some .hlt := by
  decide

theorem test_decode_data_movement :
    decodeTableWord 24 0b00001000_00000000_10000010 = some (.ldi 0 8) ∧
    decodeTableWord 24 0b00000001_00000011_10000011 = some (.ld 3 1) ∧
    decodeTableWord 24 0b00000001_00000011_10000100 = some (.st 3 1) ∧
    decodeTableWord 16 0b00000001_01000101 = some (.push 1) ∧
    decodeTableWord 16 0b00000010_01000110 = some (.pop 2) ∧
    decodeTableWord 16 0b00000000_01000111 = some (.prn 0) ∧
    decodeTableWord 16 0b00000111_01001000 = some (.pra 7) := by
  decide

theorem test_decode_alu :
    decodeTableWord 24 0b00000001_00000000_10100000 = some (.add 0 1) ∧
    decodeTableWord 24 0b00000011_00000010_10100010 = some (.mul 2 3) ∧
    decodeTableWord 24 0b00000001_00000000_10100100 = some (.mod 0 1) ∧
    decodeTableWord 24 0b00000001_00000000_10100111 = some (.cmp 0 1) ∧
    decodeTableWord 24 0b00000001_00000000_10101000 = some (.and 0 1) ∧
    decodeTableWord 24 0b00000001_00000000_10101010 = some (.or 0 1) ∧
    decodeTableWord 24 0b00000001_00000000_10101011 = some (.xor 0 1) ∧
    decodeTableWord 24 0b00000001_00000000_10101100 = some (.shl 0 1) ∧
    decodeTableWord 24 0b00000001_00000000_10101101 = some (.shr 0 1) ∧
    decodeTableWord 16 0b00000100_01100101 = some (.inc 4) ∧
    decodeTableWord 16 0b00000100_01100110 = some (.dec 4) ∧
    decodeTableWord 16 0b00000100_01101001 = some (.not 4) := by
  decide

theorem test_decode_control_transfer :
    decodeTableWord 16 0b00000010_01010000 = some (.call 2) ∧
    decodeTableWord 8 0b00010001 = some .ret ∧
    decodeTableWord 16 0b00000010_01010100 = some (.jmp 2) ∧
    decodeTableWord 16 0b00000010_01010101 = some (.jeq 2) ∧
    decodeTableWord 16 0b00000010_01010110 = some (.jne 2) ∧
    decodeTableWord 16 0b00000101_01011001 = some (.jle 5) := by
  decide

/-- Vectors S7 to S11: bytes of no instruction. -/
theorem test_decode_refuses :
    decodeTableWord 8 0x02 = none ∧ decodeTableWord 8 0xA1 = none ∧ decodeTableWord 8 0xFF = none ∧
    decodeTableWord 8 0xC0 = none ∧ decodeTableWord 8 0x57 = none := by
  decide

/-- Operand words without table bits are zeros. -/
theorem test_decode_short_table_word : decodeTableWord 8 0xA0 = some (.add 0 0) := by decide

/-! ### One step per instruction -/

/-- The reset state with the given bytes at pc and the given registers. -/
def at' (pc : Nat) (code : List Byte) (regs : List (RegIdx × Byte)) : State :=
  regs.foldl (fun s r => s.setReg r.1 r.2) { State.reset with pc := pc, mem := Memory.writeImage pc code [] }

/-- A field of the next state of one step. -/
def after {α : Type} (s : State) (f : State → α) : Option α :=
  match step s with
  | .next t => some (f t)
  | _ => none

/-- Vector A1. -/
theorem test_add : after (at' 6 [0xA0, 0, 1] [(0, 8), (1, 9)]) (fun t => (t.reg 0, t.pc)) = some (17, 9) := by decide
/-- Vector A4: the same register twice. -/
theorem test_add_same_register : after (at' 0 [0xA0, 0, 0] [(0, 128)]) (·.reg 0) = some 0 := by decide
/-- Vector A5. -/
theorem test_mul : after (at' 0 [0xA2, 2, 3] [(2, 12), (3, 30)]) (·.reg 2) = some 0x68 := by decide
/-- Vector A8. -/
theorem test_mul_square : after (at' 0 [0xA2, 0, 0] [(0, 255)]) (·.reg 0) = some 1 := by decide
/-- Vector A10. -/
theorem test_inc_wraps : after (at' 0 [0x65, 0] [(0, 255)]) (fun t => (t.reg 0, t.pc)) = some (0, 2) := by decide
/-- Vector A12. -/
theorem test_inc_sp : after (at' 0 [0x65, 7] []) (·.reg 7) = some 0xF5 := by decide
/-- Vector A13. -/
theorem test_dec_wraps : after (at' 0 [0x66, 0] []) (fun t => (t.reg 0, t.pc)) = some (255, 2) := by decide
/-- Vector A20. -/
theorem test_mod : after (at' 0 [0xA4, 0, 1] [(0, 255), (1, 16)]) (fun t => (t.reg 0, t.pc)) = some (15, 3) := by decide
/-- Vector A21. -/
theorem test_mod_by_zero : after (at' 5 [0xA4, 0, 1] [(0, 9)]) (fun t => (t.reg 0, t.pc, t.run, t.fault)) =
    some (9, 5, .faulted, some ⟨.divideByZero, 0xA4⟩) := by decide
/-- Vectors A27 and A28: unsigned. -/
theorem test_cmp_unsigned :
    after (at' 0 [0xA7, 0, 1] [(0, 0x80), (1, 0x7F)]) (fun t => (t.fl, t.pc)) = some (0x02, 3) ∧
    after (at' 0 [0xA7, 0, 1] [(0, 0), (1, 255)]) (·.fl) = some 0x04 := by decide
/-- Vector A30: the old L is cleared. -/
theorem test_cmp_rewrites : after { at' 0 [0xA7, 0, 1] [(0, 9), (1, 9)] with fl := 0x04 } (·.fl) = some 0x01 := by decide
/-- Vectors A31, A33, A34. -/
theorem test_and : after (at' 0 [0xA8, 0, 1] [(0, 0xF0), (1, 0x3C)]) (·.reg 0) = some 0x30 := by decide
theorem test_or : after (at' 0 [0xAA, 0, 1] [(0, 0xF0), (1, 0x3C)]) (·.reg 0) = some 0xFC := by decide
theorem test_xor : after (at' 0 [0xAB, 0, 1] [(0, 0xF0), (1, 0x3C)]) (·.reg 0) = some 0xCC := by decide
/-- Vector A39. -/
theorem test_not : after (at' 0 [0x69, 0] [(0, 0x5A)]) (fun t => (t.reg 0, t.pc)) = some (0xA5, 2) := by decide
/-- Vectors A42 and A44. -/
theorem test_shl : after (at' 0 [0xAC, 0, 1] [(0, 0xFF), (1, 7)]) (·.reg 0) = some 0x80 := by decide
theorem test_shl_by_255 : after (at' 0 [0xAC, 0, 1] [(0, 1), (1, 255)]) (·.reg 0) = some 0 := by decide
/-- Vectors A48 and A50. -/
theorem test_shr : after (at' 0 [0xAD, 0, 1] [(0, 0x81), (1, 1)]) (·.reg 0) = some 0x40 := by decide
theorem test_shr_by_8 : after (at' 0 [0xAD, 0, 1] [(0, 0xFF), (1, 8)]) (·.reg 0) = some 0 := by decide
/-- Vectors A52 and A53: the register check, in operand order and before the zero check. -/
theorem test_illegal_second_register :
    after (at' 0 [0xA0, 0, 8] []) (·.fault) = some (some ⟨.illegalRegister, 8⟩) := by decide
theorem test_illegal_register_before_zero_check :
    after (at' 0 [0xA4, 9, 1] []) (·.fault) = some (some ⟨.illegalRegister, 9⟩) := by decide
/-- Vector M2. -/
theorem test_ldi : after (at' 0 [0x82, 5, 0xFF] []) (fun t => (t.reg 5, t.pc)) = some (0xFF, 3) := by decide
/-- Vector M6: the address register is the destination. -/
theorem test_ld_same_register : after (at' 0 [0x83, 0, 0, 0x99] [(0, 3)]) (fun t => (t.reg 0, t.pc)) = some (0x99, 3) := by
  decide
/-- Vector M7. -/
theorem test_st : after (at' 0 [0x84, 0, 1] [(0, 0x80), (1, 43)]) (fun t => (t.mem.read 0x80, t.pc)) = some (43, 3) := by
  decide
/-- Vector M10. -/
theorem test_push_wraps : after (at' 0 [0x45, 1] [(1, 7), (7, 0)]) (fun t => (t.sp, t.mem.read 0xFF, t.pc)) =
    some (0xFF, 7, 2) := by decide
/-- Vector M11. -/
theorem test_push_sp : after (at' 0 [0x45, 7] []) (fun t => (t.sp, t.mem.read 0xF3)) = some (0xF3, 0xF3) := by decide
/-- Vector M13. -/
theorem test_pop_wraps : after (at' 0xFD [0x46, 2, 9] [(7, 0xFF)]) (fun t => (t.reg 2, t.sp, t.pc)) =
    some (9, 0, 0xFF) := by decide
/-- Vector M14. -/
theorem test_pop_sp : after (at' 0xF1 [0x46, 7, 0x10] [(7, 0xF3)]) (·.reg 7) = some 0x11 := by decide
/-- Vectors M17 and M19. -/
theorem test_prn : after (at' 0 [0x47, 0] [(0, 255)]) (fun t => (t.out, t.pc)) = some ([.dec 255], 2) := by decide
theorem test_pra : after (at' 0 [0x48, 0] [(0, 10)]) (fun t => (t.out, t.pc)) = some ([.chr 10], 2) := by decide
/-- Vector J1. -/
theorem test_jmp : after (at' 20 [0x54, 2] [(2, 12)]) (·.pc) = some 12 := by decide
/-- Vectors J3 and J6. -/
theorem test_jeq_taken : after { at' 20 [0x55, 2] [(2, 30)] with fl := 0x01 } (·.pc) = some 30 := by decide
theorem test_jeq_not_taken_at_254 : after (at' 254 [0x55, 2] []) (fun t => (t.pc, t.run)) = some (256, .running) := by
  decide
/-- Vectors J7 and J9. -/
theorem test_jne_not_taken : after { at' 20 [0x56, 2] [(2, 30)] with fl := 0x01 } (·.pc) = some 22 := by decide
theorem test_jne_taken_at_reset_flags : after (at' 20 [0x56, 2] [(2, 30)]) (·.pc) = some 30 := by decide
/-- Vectors J10 and J12. -/
theorem test_jle_taken : after { at' 20 [0x59, 5] [(5, 40)] with fl := 0x04 } (·.pc) = some 40 := by decide
theorem test_jle_not_taken : after { at' 20 [0x59, 5] [(5, 40)] with fl := 0x02 } (·.pc) = some 22 := by decide
/-- Vector J14. -/
theorem test_jeq_illegal_not_taken : after (at' 20 [0x55, 9] []) (·.fault) = some (some ⟨.illegalRegister, 9⟩) := by decide
/-- Vector J15. -/
theorem test_call : after (at' 9 [0x50, 2] [(2, 17)]) (fun t => (t.sp, t.mem.read 0xF3, t.pc)) = some (0xF3, 11, 17) := by
  decide
/-- Vectors J16 and J18. -/
theorem test_call_at_254 : after (at' 254 [0x50, 2] []) (fun t => (t.fault, t.sp, t.pc)) =
    some (some ⟨.callReturnOverflow, 256⟩, 0xF4, 254) := by decide
theorem test_call_sp : after (at' 0 [0x50, 7] []) (fun t => (t.mem.read 0xF3, t.pc)) = some (2, 0xF3) := by decide
/-- Vector J20. -/
theorem test_ret : after (at' 0xF2 [0x11, 11] [(7, 0xF3)]) (fun t => (t.pc, t.sp)) = some (11, 0xF4) := by decide
/-- Vectors S1 and S2. -/
theorem test_nop : after (at' 5 [0x00] []) (·.pc) = some 6 := by decide
theorem test_hlt : after (at' 11 [0x01] []) (fun t => (t.run, t.pc)) = some (.halted, 11) := by decide
/-- Vectors S3, S4, S12: fetch faults, and decode before operand fetch. -/
theorem test_fetch_past_end : after (at' 256 [] []) (fun t => (t.fault, t.pc)) =
    some (some ⟨.outOfRange, 256⟩, 256) := by decide
theorem test_operand_past_end : after (at' 254 [0x82, 0] []) (·.fault) = some (some ⟨.outOfRange, 256⟩) := by decide
theorem test_alu_decode_error_first : after (at' 255 [0xA1] []) (·.fault) = some (some ⟨.aluDecodeError, 0xA1⟩) := by decide
/-- The fault numbers of 60_exceptions.md R201. -/
theorem test_fault_numbers : [FaultCode.outOfRange, .decodeError, .aluDecodeError, .divideByZero, .illegalRegister,
    .callReturnOverflow].map FaultCode.number = [1, 2, 3, 4, 5, 6] := by decide
/-- The host's word is the first instruction after reset. -/
theorem test_with_fetch_word : after (State.reset.withFetchWord 24 0x2A0182) (fun t => (t.reg 1, t.pc)) = some (42, 3) := by
  decide
/-- Writing the reset content removes the cell (log 4). -/
theorem test_memory_canonical : Memory.write [(3, 7), (9, 1)] 3 0 = [(9, 1)] ∧
    Memory.write [(3, 7), (9, 1)] 5 2 = [(3, 7), (5, 2), (9, 1)] := by decide
/-- The image goes to addresses 0, 1, 2 (70_reset_and_hazards.md R232). -/
theorem test_boot : (boot [0x82, 0, 8] State.reset).map (fun s => (s.mem.read 0, s.mem.read 2, s.pc)) =
    some (0x82, 8, 0) := by decide

/-! ### Witnesses: the hypotheses of each obligation that has some are met, each clause at a boundary -/

/-- DecodedBytesAreTheEncoding. -/
theorem witness_decoded_bytes : decode [0xAD#8, 7, 255, 5] = .ok (.shr 7 255, [5]) := rfl

/-- IllegalOpcodesFaultByBitFive, both values of bit 5, at the last address. -/
theorem witness_illegal_opcode : ∀ ir ∈ [0xFE#8, 0xDF#8],
    (at' 255 [ir] []).run = .running ∧ (at' 255 [ir] []).pc ≤ 255 ∧
    (at' 255 [ir] []).mem.read (at' 255 [ir] []).pc ∉ ([0x00, 0x01, 0x11, 0x45, 0x46, 0x47, 0x48, 0x50, 0x54, 0x55, 0x56,
      0x59, 0x65, 0x66, 0x69, 0x82, 0x83, 0x84, 0xA0, 0xA2, 0xA4, 0xA7, 0xA8, 0xAA, 0xAB, 0xAC, 0xAD] : List Byte) := by
  decide

/-- StepRunsTheDecodedInstruction, each length ending at address 255. -/
theorem witness_step_runs_decoded :
    (at' 255 [0x11] []).run = .running ∧ decode (codeBytes (at' 255 [0x11] [])) = .ok (.ret, []) ∧
    (at' 254 [0x54, 7] []).run = .running ∧ decode (codeBytes (at' 254 [0x54, 7] [])) = .ok (.jmp 7, []) ∧
    (at' 253 [0x82, 7, 9] []).run = .running ∧ decode (codeBytes (at' 253 [0x82, 7, 9] [])) = .ok (.ldi 7 9, []) :=
  ⟨rfl, rfl, rfl, rfl, rfl, rfl⟩

/-- MemoryInterfaceReadsBackWhatWasWritten: the last address, another address, and the first that does not exist. -/
theorem witness_memory_interface : ∃ a b c : Nat, a ≤ 255 ∧ b ≠ a ∧ 255 < c := ⟨255, 0, 256, by decide, by decide, by decide⟩

/-- CanonicalMemoriesThatReadAlikeAreEqual. -/
theorem witness_canonical_memories : ∃ m n : Memory, m ≠ [] ∧ m.wf = true ∧ n.wf = true ∧ ∀ a, m.read a = n.read a :=
  ⟨[(0, 1), (255, 7)], [(0, 1), (255, 7)], by decide, by decide, by decide, fun _ => rfl⟩

/-- OnlyStPushCallWriteMemory and the first clause of OnlyCmpWritesFlags. -/
theorem witness_not_storing_not_comparing : ∃ t, exec (.ld 0 7) State.reset = .next t ∧
    (Instr.ld 0 7).parts.1 ∉ [.st, .push, .call] ∧ (Instr.ld 0 7).parts.1 ≠ .cmp :=
  (exec_next (.ld 0 7) State.reset).imp fun _ h => ⟨h, by decide, by decide⟩

/-- DataAccessesNeverLeaveTheAddressSpace. -/
theorem witness_no_fault_record : State.reset.fault = none := rfl

/-- FlagsAreReadOnlyByConditionalJumps: an instruction of its first clause, and an FL that differs in G only. -/
theorem witness_flags_not_read : (Instr.add 0 1).parts.1 ∉ [Opcode.jeq, .jne, .jle, .cmp] ∧
    (0x02#8).getLsbD 0 = State.reset.fl.getLsbD 0 ∧ (0x02#8).getLsbD 2 = State.reset.fl.getLsbD 2 ∧
    (0x02#8) ≠ State.reset.fl := by
  decide

/-- BootPlacesTheImageFromAddressZero: the longest image that fits and the shortest that does not. -/
theorem witness_boot_lengths : (List.replicate 256 (0x01#8)).length ≤ 256 ∧ 256 < (List.replicate 257 (0x01#8)).length := by
  rw [List.length_replicate, List.length_replicate]; decide

/-- EveryStepKeepsTheInvariant and OutOfRangeAlwaysRecordsAddress256: pc = 256, whose step faults OutOfRange. -/
theorem witness_invariant_at_the_end : Inv (at' 256 [] []) ∧
    ∃ t, step (at' 256 [] []) = .next t ∧ t.fault = some ⟨.outOfRange, 256⟩ :=
  ⟨⟨by decide, by decide, by decide, by decide⟩, _, rfl, rfl⟩

/-- EveryStepKeepsTheInvariant: an instruction that completes from reset. -/
theorem witness_invariant_completing : Inv State.reset ∧ ∃ t, step State.reset = .next t ∧ t.run = .running :=
  ⟨⟨by decide, by decide, by decide, by decide⟩, _, rfl, rfl⟩

/-- OnlyHltEntersHalted: HLT at the last address. -/
theorem witness_enters_halted : ∃ t, step (at' 255 [0x01] []) = .next t ∧ t.run = .halted := ⟨_, rfl, rfl⟩

/-- StoppedCoreTakesNoStep. -/
theorem witness_stopped : { State.reset with run := .halted }.run = .halted ∧
    (State.reset.raiseFault ⟨.outOfRange, 256⟩).run = .faulted := ⟨rfl, rfl⟩

/-- FetchesPastTheEndFault, each clause. -/
theorem witness_fetch_past_end :
    ((at' 256 [] []).run = .running ∧ 255 < (at' 256 [] []).pc) ∧
    ((at' 255 [0x47] []).mem.read 255 = Opcode.prn.byte ∧ 1 ≤ Opcode.prn.byte.toNat / 64 ∧ (at' 255 [0x47] []).pc = 255) ∧
    ((at' 254 [0x82, 0] []).mem.read 254 = Opcode.ldi.byte ∧ Opcode.ldi.byte.toNat / 64 = 2 ∧
      (at' 254 [0x82, 0] []).pc = 254) ∧
    ((at' 255 [0x11] []).mem.read 255 = Opcode.ret.byte ∧ Opcode.ret.byte.toNat / 64 = 0) := by
  decide

/-- NopOnlyAdvances: a NOP at the last address and a fetch past it. -/
theorem witness_nop : ((at' 255 [0x00] []).run = .running ∧ (at' 255 [0x00] []).pc ≤ 255 ∧
    (at' 255 [0x00] []).mem.read 255 = 0x00) ∧ (at' 256 [] []).run = .running ∧ 255 < (at' 256 [] []).pc := by
  decide

/-- PcAdvancesUnlessTheSetsPcBitIsSet: an instruction that completes, and one that stops the core. -/
theorem witness_pc_advances :
    (∃ t, State.reset.run = .running ∧ exec .nop State.reset = .next t ∧ t.run = .running ∧
      Instr.nop.opcodeByte.getLsbD 4 = false) ∧
    (∃ t, exec .hlt State.reset = .next t ∧ t.run ≠ .running) :=
  ⟨⟨_, rfl, rfl, rfl, rfl⟩, ⟨_, rfl, by decide⟩⟩

/-- FaultsArePrecise: a faulting instruction in mid-memory. -/
theorem witness_precise_fault : ∃ t, step (at' 5 [0x02] []) = .next t ∧ t.run = .faulted := ⟨_, rfl, rfl⟩

/-- StepReportsTheFirstFaultInOrder: every item of the order, and none. -/
theorem witness_first_fault :
    firstFault (at' 256 [] []) = some ⟨.outOfRange, 256⟩ ∧ firstFault (at' 255 [0xA1] []) = some ⟨.aluDecodeError, 0xA1⟩ ∧
    firstFault (at' 255 [0x47] []) = some ⟨.outOfRange, 256⟩ ∧ firstFault (at' 254 [0x82, 9] []) = some ⟨.outOfRange, 256⟩ ∧
    firstFault (at' 0 [0xA4, 9, 8] []) = some ⟨.illegalRegister, 9⟩ ∧
    firstFault (at' 0 [0xA4, 0, 8] []) = some ⟨.illegalRegister, 8⟩ ∧
    firstFault (at' 0 [0xA4, 0, 1] []) = some ⟨.divideByZero, 0xA4⟩ ∧
    firstFault (at' 254 [0x50, 2] []) = some ⟨.callReturnOverflow, 256⟩ ∧
    firstFault (at' 253 [0x50, 2] []) = none ∧ (at' 253 [0x50, 2] []).run = .running := by
  decide

/-- The register checks of every form with a register operand: the first illegal byte and the last. -/
theorem witness_illegal_registers : 7 < (8#8).toNat ∧ 7 < (255#8).toNat ∧ (7#8).toNat ≤ 7 := by decide

/-- ModIsTheRemainderOrAFault: both clauses. -/
theorem witness_mod_divisors : State.reset.reg 7 ≠ 0 ∧ State.reset.reg 0 = 0 := by decide

/-- CmpSetsOneFlagByUnsignedOrder: each clause. -/
theorem witness_cmp_orders : (State.reset.reg 0).toNat < (State.reset.reg 7).toNat ∧ State.reset.reg 0 = State.reset.reg 1 := by
  decide

/-- ShiftsByEightOrMoreGiveZero: the smallest and the largest amount. -/
theorem witness_shift_amounts : 8 ≤ ((at' 0 [] [(1, 8)]).reg 1).toNat ∧ 8 ≤ ((at' 0 [] [(1, 255)]).reg 1).toNat := by decide

/-- StoreIntoCodeIsSeenByTheNextFetch: ST at 252 whose HLT is stored at 255, ST at 250 whose LDI ends at 255, and ST at
0 that stores an operand byte of the LDI after it. -/
theorem witness_store_into_code :
    (let s := at' 252 [0x84, 0, 1] [(0, 255), (1, 0x01)]
     s.run = .running ∧ s.pc ≤ 253 ∧ s.mem.read s.pc = 0x84 ∧ s.mem.read (s.pc + 1) = regByte 0 ∧
     s.mem.read (s.pc + 2) = regByte 1 ∧
     ∃ t, step s = .next t ∧ t.mem.read (s.pc + 3) = Opcode.hlt.byte ∧ s.pc + 3 + Opcode.hlt.byte.toNat / 64 = 255) ∧
    (let s := at' 250 [0x84, 0, 1, 0, 2, 9] [(0, 253), (1, 0x82)]
     s.run = .running ∧ s.pc ≤ 253 ∧ s.mem.read s.pc = 0x84 ∧ s.mem.read (s.pc + 1) = regByte 0 ∧
     s.mem.read (s.pc + 2) = regByte 1 ∧
     ∃ t, step s = .next t ∧ t.mem.read (s.pc + 3) = Opcode.ldi.byte ∧ s.pc + 3 + Opcode.ldi.byte.toNat / 64 = 255) ∧
    (let s := at' 0 [0x84, 0, 1, 0x82, 2, 9] [(0, 5), (1, 7)]
     s.mem.read s.pc = 0x84 ∧ ∃ t, step s = .next t ∧ t.mem.read (s.pc + 3) = Opcode.ldi.byte ∧
     t.mem.read (s.pc + 5) = 7) :=
  ⟨⟨by decide, by decide, by decide, by decide, by decide, _, rfl, by decide, by decide⟩,
    ⟨by decide, by decide, by decide, by decide, by decide, _, rfl, by decide, by decide⟩,
    by decide, _, rfl, by decide, by decide⟩

/-- StoreIntoCodeIsSeenByTheNextFetch: an ST in the last three bytes, after which pc is 256. -/
theorem witness_store_at_the_end :
    let s := at' 253 [0x84, 0, 1] []
    s.run = .running ∧ s.pc ≤ 253 ∧ s.mem.read s.pc = 0x84 ∧ s.mem.read (s.pc + 1) = regByte 0 ∧
    s.mem.read (s.pc + 2) = regByte 1 := by
  decide

/-- JeqJumpsWhenEqual, JneJumpsWhenNotEqual, JleJumpsWhenLessOrEqual: each flag set and clear. -/
theorem witness_jump_flags : (0x01#8).getLsbD 0 = true ∧ (0x00#8).getLsbD 0 = false ∧ (0x04#8).getLsbD 2 = true ∧
    (0x02#8).getLsbD 2 = false ∧ (0x02#8).getLsbD 0 = false := by
  decide

/-- CallPushesTheReturnAddress and RetReturnsAfterTheCall: the last pc whose return address is a byte and the next. -/
theorem witness_call_addresses : (at' 253 [] []).pc + 2 ≤ 255 ∧ 255 < (at' 254 [] []).pc + 2 := by decide

/-- RetReturnsAfterTheCall: the state right after the CALL is one whose stack CALL left in place. -/
theorem witness_return_after_call : ∃ t, exec (.call 2) (at' 9 [] []) = .next t ∧
    ∃ u : State, u.reg 7 = t.reg 7 ∧ u.mem.read (t.reg 7).toNat = t.mem.read (t.reg 7).toNat :=
  (exec_next _ _).imp fun t h => ⟨h, t, rfl, rfl⟩

end Sys2Proof.Tests
end

section
/-! PROOFS. The flags register: what CMP writes into it, that no other instruction writes it, and which instructions read it
(10_state.md R28, R29); and the registers at reset (R24). -/

namespace Sys2Proof.Machine

/-! ### Who writes FL -/

/-- An instruction that writes FL is CMP (10_state.md R28). -/
theorem exec_fl_of_ne_cmp {i : Instr} {s t : State} (h : exec i s = .next t) (hi : i.parts.1 ≠ .cmp) : t.fl = s.fl := by
  rcases exec_cases i s with ⟨f, e, -⟩ | ⟨-, e⟩ | ⟨-, u, e, hu⟩ <;> cases e.symm.trans h
  · rfl
  · rfl
  · rw [State.advance_fl]
    exact hu.fl.resolve_right fun hc => hi hc.1

/-- CMP on legal registers writes the comparison into FL and advances pc by 3 (41_alu.md R125). -/
theorem exec_cmp_legal (a b : RegIdx) (s : State) :
    exec (.cmp (regByte a) (regByte b)) s =
      .next { s with fl := compareFlags (s.reg a) (s.reg b), pc := s.pc + 3 } := by
  simp only [exec, execCmp, reg_regByte, except_ok_bind, complete_ok]
  rw [State.advance_of_not_setsPc _ (ir := Opcode.cmp.byte) (by decide)]
  rfl

/-- A comparison leaves one of the three one-flag values (10_state.md R28). -/
theorem compareFlags_mem (u v : Byte) : compareFlags u v ∈ [0x04#8, 0x02#8, 0x01#8] := by
  rcases compareFlags_cases u v with ⟨-, e⟩ | ⟨-, e⟩ | ⟨-, e⟩ <;> simp [e]

/-- A comparison sets G exactly when the first operand is greater, unsigned (41_alu.md R125). -/
theorem flagG_compareFlags (u v : Byte) : flagG (compareFlags u v) = true ↔ v.toNat < u.toNat := by
  rcases compareFlags_cases u v with ⟨h, e⟩ | ⟨h, e⟩ | ⟨h, e⟩ <;> rw [e]
  · simp [flagG, Nat.le_of_lt h]
  · simp [flagG, h]
  · simp [flagG, h]

/-! ### Who reads FL -/

/-- The state with `fl` in the flags register. -/
def State.withFl (fl : Byte) (s : State) : State := { s with fl := fl }

/-- Executing `i` in `s` does the same with `fl` in the flags register, and leaves `fl` there. -/
def IgnoresFl (i : Instr) (s : State) (fl : Byte) : Prop :=
  ∃ t, exec i s = .next t ∧ exec i (s.withFl fl) = .next (t.withFl fl)

section withFl
variable {α : Type} {s : State} {fl ir : Byte} {r r' : Except FaultRecord State} {k k' : α → Except FaultRecord State}

theorem State.withFl_advance : (s.withFl fl).advance ir = (s.advance ir).withFl fl := by
  unfold State.advance; split <;> rfl

/-- Completion commutes with a change of FL when the writes do. -/
theorem complete_withFl (h : r' = r.map (State.withFl fl)) :
    ∃ t, complete ir s r = .next t ∧ complete ir (s.withFl fl) r' = .next (t.withFl fl) := by
  subst h
  cases r with
  | ok u => exact ⟨_, rfl, congrArg _ State.withFl_advance⟩
  | error f => exact ⟨_, rfl, rfl⟩

/-- A sequence whose first part answers no state, such as a register check or a memory read, commutes with a change of FL
when the rest does. -/
theorem bind_withFl {x : Except FaultRecord α} (h : ∀ a, k' a = (k a).map (State.withFl fl)) :
    (x >>= k') = (x >>= k).map (State.withFl fl) := by
  cases x with
  | ok a => exact h a
  | error f => rfl

/-- A fault check before the writes, as in MOD and CALL. -/
theorem faultCheck_withFl {c : Prop} [Decidable c] {f : FaultRecord} (h : r' = r.map (State.withFl fl)) :
    (if c then .error f else r') = (if c then .error f else r : Except FaultRecord State).map (State.withFl fl) := by
  split
  · rfl
  · exact h

/-- A jump on a condition that both values of FL answer alike (43_control_transfer.md R170 to R173). -/
theorem jumpIf_withFl {cond : Byte → Bool} (h : cond fl = cond s.fl) (op1 : Byte) :
    ∃ t, jumpIf ir cond op1 s = .next t ∧ jumpIf ir cond op1 (s.withFl fl) = .next (t.withFl fl) :=
  complete_withFl <| bind_withFl fun a => by
    simp only [State.withFl, h]; rfl

end withFl

/-- No instruction but JEQ, JNE and JLE reads FL; CMP, which rewrites it, stands apart (10_state.md R29). -/
theorem ignoresFl {i : Instr} (hi : i.parts.1 ∉ [.jeq, .jne, .jle, .cmp]) (s : State) (fl : Byte) : IgnoresFl i s fl := by
  cases i
  case jeq | jne | jle | cmp => simp [Instr.parts] at hi
  case hlt => exact ⟨_, rfl, rfl⟩
  case nop => exact complete_withFl (s := s) (r := .ok s) rfl
  case ret => exact complete_withFl <| bind_withFl fun v => rfl
  case jmp op1 => exact jumpIf_withFl (cond := fun _ => true) rfl op1
  case prn | pra | inc | dec | not | ldi => exact complete_withFl <| bind_withFl fun a => rfl
  case push => exact complete_withFl <| bind_withFl fun a => by rw [push_ok, push_ok]; rfl
  case pop => exact complete_withFl <| bind_withFl fun a => bind_withFl fun v => rfl
  case call =>
    exact complete_withFl <| bind_withFl fun a => faultCheck_withFl <| by rw [push_ok, push_ok]; rfl
  case ld => exact complete_withFl <| bind_withFl fun a => bind_withFl fun b => bind_withFl fun v => rfl
  case st =>
    exact complete_withFl <| bind_withFl fun a => bind_withFl fun b => by rw [memWrite_byte, memWrite_byte]; rfl
  case mod => exact complete_withFl <| bind_withFl fun a => bind_withFl fun b => faultCheck_withFl rfl
  case add | mul | and | or | xor | shl | shr =>
    exact complete_withFl <| bind_withFl fun a => bind_withFl fun b => rfl

/-! ### Registers at reset -/

/-- The reset registers are a zero file with one write, of the stack pointer (10_state.md R24). -/
theorem State.reset_eq_setReg :
    State.reset = State.setReg { State.reset with x := Vector.replicate 8 0 } spIndex spReset := rfl

theorem State.reset_reg (r : RegIdx) : State.reset.reg r = if r = 7 then 0xF4#8 else 0 := by
  rw [State.reset_eq_setReg, State.reg_setReg]
  simp [State.reg, spIndex_eq, spReset]

/-! ### The obligations -/

/-- Settles O11: an instruction ends in a fault, in HALTED or in its own writes, and only CMP's write FL; CMP's value comes
from its two registers alone. -/
theorem onlyCmpWritesFlags : Obligations.OnlyCmpWritesFlags := by
  unfold Obligations.OnlyCmpWritesFlags
  refine ⟨fun i s t h hi => exec_fl_of_ne_cmp h hi, fun a b s => ?_⟩
  exact ⟨_, compareFlags_mem (s.reg a) (s.reg b), fun old => exec_cmp_legal a b { s with fl := old }⟩

/-- Settles O12: every operation of an instruction's rule commutes with a change of FL, except the test of a conditional jump,
which reads E, or L and E. -/
theorem flagsAreReadOnlyByConditionalJumps : Obligations.FlagsAreReadOnlyByConditionalJumps := by
  unfold Obligations.FlagsAreReadOnlyByConditionalJumps
  intro s fl
  refine ⟨fun i hi => ignoresFl hi s fl, fun a b => ⟨?_, ?_⟩, fun hE op1 => ⟨?_, ?_⟩, fun hE hL op1 => ?_⟩
  · rw [exec_cmp_legal, exec_cmp_legal]; rfl
  · exact ⟨_, exec_cmp_legal a b s, flagG_compareFlags _ _⟩
  · exact jumpIf_withFl (condEqual_congr hE) op1
  · exact jumpIf_withFl (condNotEqual_congr hE) op1
  · exact jumpIf_withFl (condLessOrEqual_congr hL hE) op1

/-- Settles O14, by reading the register file as one write over zeros. -/
theorem resetRegistersAreZeroButTheStackPointer : Obligations.ResetRegistersAreZeroButTheStackPointer := by
  unfold Obligations.ResetRegistersAreZeroButTheStackPointer
  exact ⟨State.reset_reg 7, fun r hr => by rw [State.reset_reg, if_neg hr]⟩

end Sys2Proof.Machine
end

section
/-! PROOFS. The memory interface (20_memory.md R51): what a read answers after a write. -/

namespace Sys2Proof.Machine

/-- Two states whose memories agree at an address answer a read of it alike, in range or not. -/
theorem memRead_congr {b : Nat} {s t : State} (h : t.mem.read b = s.mem.read b) : memRead b t = memRead b s := by
  rcases Nat.lt_or_ge 255 b with hb | hb
  · rw [memRead_error t hb, memRead_error s hb]
  · rw [memRead_ok t hb, memRead_ok s hb, h]

/-- A read of the address just written answers the byte written (20_memory.md R51). -/
theorem memRead_write_self {a : Nat} (v : Byte) (s : State) (h : a ≤ 255) :
    memRead a { s with mem := s.mem.write a v } = .ok v := by
  rw [memRead_ok _ h, Memory.read_write_self]

/-- A write leaves what a read of any other address answers as it was, OutOfRange above address 255 included. -/
theorem memRead_write_ne {a b : Nat} (v : Byte) (s : State) (h : b ≠ a) :
    memRead b { s with mem := s.mem.write a v } = memRead b s :=
  memRead_congr (s.mem.read_write_ne a v h)

/-! ### The obligation -/

/-- Settles O7: the written memory is the old one with one byte replaced; above address 255 both operations check first. -/
theorem memoryInterfaceReadsBackWhatWasWritten : Obligations.MemoryInterfaceReadsBackWhatWasWritten := by
  unfold Obligations.MemoryInterfaceReadsBackWhatWasWritten
  intro s a v
  refine ⟨fun ha => ⟨s.mem.write a v, ?_, ?_, ?_⟩, fun ha => ⟨?_, ?_⟩⟩
  · exact memWrite_ok v s ha
  · exact memRead_write_self v s ha
  · exact fun b hb => memRead_write_ne v s hb
  · exact memRead_error s ha
  · exact memWrite_error v s ha

end Sys2Proof.Machine
end

section
/-! PROOFS. The illegal opcode bytes (30_encoding.md R73, R78): what the decoder answers on them and what a step does. -/

namespace Sys2Proof

/-- A byte of no row of the opcode map is illegal, by its ALU bit (30_encoding.md R73, R78). -/
theorem decodeOpcode_of_ne_byte {ir : Byte} (h : ∀ o : Opcode, o.byte ≠ ir) :
    decodeOpcode ir = .error (if aluBit ir then .aluDecodeError else .decodeError) := by
  have find_none (l : List Opcode) : l.find? (fun o => o.byte == ir) = none := by simp [h]
  have not_nop : ir ≠ 0x00#8 := (h .nop).symm
  have not_hlt : ir ≠ 0x01#8 := (h .hlt).symm
  simp only [decodeOpcode, not_nop, not_hlt, find_none, if_false]
  split <;> rfl

end Sys2Proof

namespace Sys2Proof.Machine

/-- The record of an illegal byte names the error its ALU bit chooses, and the byte (30_encoding.md R78). -/
theorem illegalOpcodeRecord_ite (ir : Byte) (b : Bool) :
    illegalOpcodeRecord ir (if b then .aluDecodeError else .decodeError) =
      ⟨if b then .aluDecodeError else .decodeError, ir.toNat⟩ := by
  cases b <;> rfl

/-- A running core that fetches a byte of no row enters FAULTED at decode (30_encoding.md R78, 40_sequencer.md R102). -/
theorem step_of_ne_byte {s : State} (hrun : s.run = .running) (hpc : s.pc ≤ 255)
    (h : ∀ o : Opcode, o.byte ≠ s.mem.read s.pc) :
    step s = .next (s.raiseFault
      ⟨if aluBit (s.mem.read s.pc) then .aluDecodeError else .decodeError, (s.mem.read s.pc).toNat⟩) := by
  rw [step_of_fetchDecode_error hrun (fetchDecode_illegal hpc (decodeOpcode_of_ne_byte h)), illegalOpcodeRecord_ite]

/-! ### The obligation -/

/-- Settles O4: the three counts are evaluated over the 256 bytes; every row's byte is on the written list, so a byte
off the list is of no row, and the decoder's last test is bit 5. -/
theorem illegalOpcodesFaultByBitFive : Obligations.IllegalOpcodesFaultByBitFive := by
  unfold Obligations.IllegalOpcodesFaultByBitFive
  refine ⟨by decide +kernel, by decide +kernel, by decide +kernel, fun s hrun hpc hill => ?_⟩
  have no_row (o : Opcode) : o.byte ≠ s.mem.read s.pc := fun e => hill (e ▸ by cases o <;> decide)
  exact step_of_ne_byte hrun hpc no_row

end Sys2Proof.Machine
end

section
/-! PROOFS. NOP (40_sequencer.md R108): a row without operands at the decoder, NOP's execution, and the fault of a fetch. -/

namespace Sys2Proof

/-- A row without operands is its opcode byte alone: the decoder hands back every byte after it (30_encoding.md R70). -/
theorem decode_of_operandCount_eq_zero {o : Opcode} (h : operandCount o.byte = 0) (rest : List Byte) :
    decode (o.byte :: rest) = .ok (o.instr 0 0, rest) := by
  simp [decode, h]

end Sys2Proof

namespace Sys2Proof.Machine

/-- NOP writes nothing, so only the advance past its one byte remains (40_sequencer.md R105, R108). -/
theorem exec_nop (s : State) : exec .nop s = .next { s with pc := s.pc + 1 } :=
  congrArg Host.Outcome.next (State.advance_of_not_setsPc s (ir := Opcode.nop.byte) (by decide))

/-- A running core at a NOP byte executes NOP: with no operand to fetch, address 255 is within reach (40_sequencer.md R103). -/
theorem step_of_nop_byte {s : State} (hrun : s.run = .running) (hpc : s.pc ≤ 255)
    (h : s.mem.read s.pc = Opcode.nop.byte) : step s = .next { s with pc := s.pc + 1 } := by
  have fetched : fetchDecode s = .ok .nop := fetchDecode_fits h hpc
  rw [step_of_fetchDecode_ok hrun fetched, exec_nop]

/-- A running core above address 255 faults at its fetch (40_sequencer.md R101). -/
theorem step_of_pc_pastEnd {s : State} (hrun : s.run = .running) (hpc : 255 < s.pc) :
    step s = .next (s.raiseFault ⟨.outOfRange, s.pc⟩) :=
  step_of_fetchDecode_error hrun (fetchDecode_pastEnd hpc)

/-! ### The obligation -/

/-- Settles O19: NOP has no operand byte to decode or fetch and writes nothing, which leaves its advance and the fault of
its fetch. -/
theorem nopOnlyAdvances : Obligations.NopOnlyAdvances := by
  unfold Obligations.NopOnlyAdvances
  refine ⟨fun rest => ?_, exec_nop, fun s hrun => ⟨fun hpc hnop => ?_, fun hpc => ?_⟩⟩
  · exact decode_of_operandCount_eq_zero (o := .nop) rfl rest
  · exact step_of_nop_byte hrun hpc hnop
  · exact step_of_pc_pastEnd hrun hpc

end Sys2Proof.Machine
end

section
/-! PROOFS. The ALU rows that write one register (41_alu.md R121 to R124, R126 to R131): a row with operands at the decoder, the
tables of the rows by operand form, what each form does on legal and illegal operands, and the byte each row computes. -/

namespace Sys2Proof

/-- A row with one operand is its opcode byte and that operand byte (30_encoding.md R70). -/
theorem decode_of_operandCount_eq_one {o : Opcode} (h : operandCount o.byte = 1) (op1 : Byte) (rest : List Byte) :
    decode (o.byte :: op1 :: rest) = .ok (o.instr op1 0, rest) := by
  simp [decode, h]

/-- A row with two operands is its opcode byte and those operand bytes in order (30_encoding.md R70). -/
theorem decode_of_operandCount_eq_two {o : Opcode} (h : operandCount o.byte = 2) (op1 op2 : Byte) (rest : List Byte) :
    decode (o.byte :: op1 :: op2 :: rest) = .ok (o.instr op1 op2, rest) := by
  simp [decode, h]

end Sys2Proof

namespace Sys2Proof.Machine

/-! ### Rows of the form Ra, Rb -/

/-- The rows that write `f x[a] x[b]` into `x[a]` and have no fault of their own (41_alu.md R120). -/
inductive BinaryAlu : Opcode → (Byte → Byte → Byte) → Prop
  | add : BinaryAlu .add aluAdd
  | mul : BinaryAlu .mul aluMul
  | and : BinaryAlu .and aluAnd
  | or : BinaryAlu .or aluOr
  | xor : BinaryAlu .xor aluXor
  | shl : BinaryAlu .shl aluShl
  | shr : BinaryAlu .shr aluShr

namespace BinaryAlu
variable {o : Opcode} {f : Byte → Byte → Byte}

/-- The table agrees with the model: such a row executes as `aluBinary` with the row's function. -/
theorem exec_eq (h : BinaryAlu o f) (op1 op2 : Byte) (s : State) :
    exec (o.instr op1 op2) s = aluBinary o.byte f op1 op2 s := by
  cases h <;> rfl

theorem operandCount_eq (h : BinaryAlu o f) : operandCount o.byte = 2 := by cases h <;> rfl

theorem setsPcBit_eq (h : BinaryAlu o f) : setsPcBit o.byte = false := by cases h <;> rfl

theorem decode_eq (h : BinaryAlu o f) (op1 op2 : Byte) (rest : List Byte) :
    decode (o.byte :: op1 :: op2 :: rest) = .ok (o.instr op1 op2, rest) :=
  decode_of_operandCount_eq_two h.operandCount_eq op1 op2 rest

/-- On legal registers only `x[a]` and pc change (41_alu.md R120, 40_sequencer.md R105). -/
theorem exec_legal (h : BinaryAlu o f) (a b : RegIdx) (s : State) :
    exec (o.instr (regByte a) (regByte b)) s =
      .next { s with x := s.x.set a (f (s.reg a) (s.reg b)), pc := s.pc + 3 } := by
  rw [h.exec_eq, aluBinary_legal, State.advance_of_not_setsPc _ h.setsPcBit_eq, h.operandCount_eq]
  rfl

theorem checksBothRegisters (h : BinaryAlu o f) : ChecksBothRegisters o.instr := fun op1 op2 s =>
  ⟨fun h1 => (h.exec_eq op1 op2 s).trans (aluBinary_illegal_first _ f s op2 h1),
    fun h1 h2 => (h.exec_eq op1 op2 s).trans (aluBinary_illegal_second _ f s h1 h2)⟩

end BinaryAlu

/-! ### Rows of the form Ra -/

/-- The rows that write `g x[a]` into `x[a]` (41_alu.md R120). -/
inductive UnaryAlu : Opcode → (Byte → Byte) → Prop
  | inc : UnaryAlu .inc aluInc
  | dec : UnaryAlu .dec aluDec
  | not : UnaryAlu .not aluNot

namespace UnaryAlu
variable {o : Opcode} {g : Byte → Byte}

/-- The table agrees with the model: such a row executes as `aluUnary` with the row's function, and has no second operand. -/
theorem exec_eq (h : UnaryAlu o g) (op1 op2 : Byte) (s : State) :
    exec (o.instr op1 op2) s = aluUnary o.byte g op1 s := by
  cases h <;> rfl

theorem operandCount_eq (h : UnaryAlu o g) : operandCount o.byte = 1 := by cases h <;> rfl

theorem setsPcBit_eq (h : UnaryAlu o g) : setsPcBit o.byte = false := by cases h <;> rfl

theorem decode_eq (h : UnaryAlu o g) (op1 : Byte) (rest : List Byte) :
    decode (o.byte :: op1 :: rest) = .ok (o.instr op1 0, rest) :=
  decode_of_operandCount_eq_one h.operandCount_eq op1 rest

/-- On a legal register only `x[a]` and pc change (41_alu.md R120, 40_sequencer.md R105). -/
theorem exec_legal (h : UnaryAlu o g) (a : RegIdx) (s : State) :
    exec (o.instr (regByte a) 0) s = .next { s with x := s.x.set a (g (s.reg a)), pc := s.pc + 2 } := by
  rw [h.exec_eq, aluUnary_legal, State.advance_of_not_setsPc _ h.setsPcBit_eq, h.operandCount_eq]
  rfl

theorem checksRegister (h : UnaryAlu o g) : ChecksRegister (o.instr · 0) := fun op1 s h1 =>
  (h.exec_eq op1 0 s).trans (aluUnary_illegal _ g s h1)

end UnaryAlu

/-! ### The byte each row computes -/

theorem aluAdd_toNat (u v : Byte) : (aluAdd u v).toNat = (u.toNat + v.toNat) % 256 := trunc8_toNat _

theorem aluMul_toNat (u v : Byte) : (aluMul u v).toNat = u.toNat * v.toNat % 256 := trunc8_toNat _

theorem aluInc_toNat (u : Byte) : (aluInc u).toNat = (u.toNat + 1) % 256 := trunc8_toNat _

theorem aluDec_toNat (u : Byte) : (aluDec u).toNat = (u.toNat + 255) % 256 := trunc8_toNat _

/-- The amount is the whole byte, unmasked: 8 or more shifts every bit out (41_alu.md R130, R133; log 26). -/
theorem aluShl_toNat (u v : Byte) : (aluShl u v).toNat = u.toNat * 2 ^ v.toNat % 256 := trunc8_toNat _

/-- A quotient of a byte is a byte, so the narrowing to 8 bits loses nothing (41_alu.md R131; log 26). -/
theorem aluShr_toNat (u v : Byte) : (aluShr u v).toNat = u.toNat / 2 ^ v.toNat :=
  (trunc8_toNat _).trans (Nat.mod_eq_of_lt ((Nat.div_le_self _ _).trans_lt u.isLt))

theorem aluNot_toNat (u : Byte) : (aluNot u).toNat = 255 - u.toNat :=
  (trunc8_toNat _).trans (Nat.mod_eq_of_lt (by omega))

/-- `255 - u` is the bitwise complement (41_alu.md R129). -/
theorem aluNot_eq_not (u : Byte) : aluNot u = ~~~u :=
  BitVec.eq_of_toNat_eq (by rw [aluNot_toNat, BitVec.toNat_not])

theorem aluNot_getLsbD (u : Byte) {k : Nat} (hk : k < 8) : (aluNot u).getLsbD k = !u.getLsbD k := by
  rw [aluNot_eq_not, BitVec.getLsbD_not, decide_eq_true hk, Bool.true_and]

/-! ### The obligations -/

/-- Settles O28: ADD is a row of the form Ra, Rb, and its byte is the narrowed sum. -/
theorem addWrapsModulo256 : Obligations.AddWrapsModulo256 :=
  ⟨BinaryAlu.add.decode_eq, fun a b s => ⟨_, aluAdd_toNat _ _, BinaryAlu.add.exec_legal a b s⟩,
    BinaryAlu.add.checksBothRegisters⟩

/-- Settles O29: MUL is a row of the form Ra, Rb, and its byte is the narrowed product. -/
theorem mulKeepsTheLowByte : Obligations.MulKeepsTheLowByte :=
  ⟨BinaryAlu.mul.decode_eq, fun a b s => ⟨_, aluMul_toNat _ _, BinaryAlu.mul.exec_legal a b s⟩,
    BinaryAlu.mul.checksBothRegisters⟩

/-- Settles O30: INC is a row of the form Ra, and its byte is the narrowed successor. -/
theorem incAddsOneModulo256 : Obligations.IncAddsOneModulo256 :=
  ⟨UnaryAlu.inc.decode_eq, fun a s => ⟨_, aluInc_toNat _, UnaryAlu.inc.exec_legal a s⟩, UnaryAlu.inc.checksRegister⟩

/-- Settles O31: DEC is a row of the form Ra, and its byte is the narrowed sum with 255. -/
theorem decSubtractsOneModulo256 : Obligations.DecSubtractsOneModulo256 :=
  ⟨UnaryAlu.dec.decode_eq, fun a s => ⟨_, aluDec_toNat _, UnaryAlu.dec.exec_legal a s⟩, UnaryAlu.dec.checksRegister⟩

/-- Settles O34: AND is a row of the form Ra, Rb, and its byte is the bit vectors' conjunction. -/
theorem andIsBitwise : Obligations.AndIsBitwise :=
  ⟨BinaryAlu.and.decode_eq, fun a b s => ⟨_, fun _ => BitVec.getLsbD_and, BinaryAlu.and.exec_legal a b s⟩,
    BinaryAlu.and.checksBothRegisters⟩

/-- Settles O35: OR is a row of the form Ra, Rb, and its byte is the bit vectors' disjunction. -/
theorem orIsBitwise : Obligations.OrIsBitwise :=
  ⟨BinaryAlu.or.decode_eq, fun a b s => ⟨_, fun _ => BitVec.getLsbD_or, BinaryAlu.or.exec_legal a b s⟩,
    BinaryAlu.or.checksBothRegisters⟩

/-- Settles O36: XOR is a row of the form Ra, Rb, and its byte is the bit vectors' exclusive or. -/
theorem xorIsBitwise : Obligations.XorIsBitwise :=
  ⟨BinaryAlu.xor.decode_eq, fun a b s => ⟨_, fun _ => BitVec.getLsbD_xor, BinaryAlu.xor.exec_legal a b s⟩,
    BinaryAlu.xor.checksBothRegisters⟩

/-- Settles O37: NOT is a row of the form Ra, and 255 minus a byte inverts its eight bits. -/
theorem notComplementsEveryBit : Obligations.NotComplementsEveryBit :=
  ⟨UnaryAlu.not.decode_eq,
    fun a s => ⟨_, aluNot_toNat _, fun _ hk => aluNot_getLsbD _ hk, UnaryAlu.not.exec_legal a s⟩,
    UnaryAlu.not.checksRegister⟩

/-- Settles O38: SHL is a row of the form Ra, Rb, and its byte is the narrowed product with the power of 2. -/
theorem shlShiftsByTheWholeByte : Obligations.ShlShiftsByTheWholeByte :=
  ⟨BinaryAlu.shl.decode_eq, fun a b s => ⟨_, aluShl_toNat _ _, BinaryAlu.shl.exec_legal a b s⟩,
    BinaryAlu.shl.checksBothRegisters⟩

/-- Settles O39: SHR is a row of the form Ra, Rb, and its byte is the quotient by the power of 2, which needs no narrowing. -/
theorem shrShiftsByTheWholeByte : Obligations.ShrShiftsByTheWholeByte :=
  ⟨BinaryAlu.shr.decode_eq, fun a b s => ⟨_, aluShr_toNat _ _, BinaryAlu.shr.exec_legal a b s⟩,
    BinaryAlu.shr.checksBothRegisters⟩

end Sys2Proof.Machine
end

section
/-! PROOFS. Data movement and output (42_data_movement.md R150 to R152, R155, R156): the register checks of an instruction that
makes them first, and what LDI, LD, ST and the two output rows do on legal registers. -/

namespace Sys2Proof.Machine

/-! ### The register checks -/

/-- An instruction that checks its register operand before anything else (30_encoding.md R74, 40_sequencer.md R107). -/
theorem checksRegister_of_exec_eq {mk : Byte → Instr} {ir : Byte} {k : State → RegIdx → Except FaultRecord State}
    (h : ∀ op1 s, exec (mk op1) s = complete ir s (reg op1 >>= k s)) : ChecksRegister mk := by
  intro op1 s h1
  rw [h, reg_illegal h1, except_error_bind, complete_error]
  rfl

/-- An instruction that checks its first, then its second register operand before anything else (30_encoding.md R74). -/
theorem checksBothRegisters_of_exec_eq {mk : Byte → Byte → Instr} {ir : Byte}
    {k : State → RegIdx → RegIdx → Except FaultRecord State}
    (h : ∀ op1 op2 s, exec (mk op1 op2) s = complete ir s (do let a ← reg op1; let b ← reg op2; k s a b)) :
    ChecksBothRegisters mk := by
  refine fun op1 op2 s => ⟨fun h1 => ?_, fun h1 h2 => ?_⟩
  · rw [h, reg_illegal h1, except_error_bind, complete_error]
    rfl
  · rw [h, reg_legal h1, except_ok_bind, reg_illegal h2, except_error_bind, complete_error]
    rfl

/-! ### Legal registers -/

/-- On a legal register LDI writes its immediate byte and advances pc by 3 (42_data_movement.md R150). -/
theorem exec_ldi_legal (a : RegIdx) (imm : Byte) (s : State) :
    exec (.ldi (regByte a) imm) s = .next { s with x := s.x.set a imm, pc := s.pc + 3 } := by
  simp only [exec, execLdi, reg_regByte, except_ok_bind, complete_ok]
  rw [State.advance_of_not_setsPc _ (ir := Opcode.ldi.byte) (by decide)]
  rfl

/-- On legal registers LD writes the byte of memory at `x[b]`, an address always in range (42_data_movement.md R151). -/
theorem exec_ld_legal (a b : RegIdx) (s : State) :
    exec (.ld (regByte a) (regByte b)) s =
      .next { s with x := s.x.set a (s.mem.read (s.reg b).toNat), pc := s.pc + 3 } := by
  simp only [exec, execLd, reg_regByte, memRead_byte, except_ok_bind, complete_ok]
  rw [State.advance_of_not_setsPc _ (ir := Opcode.ld.byte) (by decide)]
  rfl

/-- On legal registers ST writes `x[b]` at address `x[a]`, always in range (42_data_movement.md R152). -/
theorem exec_st_legal (a b : RegIdx) (s : State) :
    exec (.st (regByte a) (regByte b)) s =
      .next { s with mem := s.mem.write (s.reg a).toNat (s.reg b), pc := s.pc + 3 } := by
  simp only [exec, execSt, reg_regByte, memWrite_byte, except_ok_bind, complete_ok]
  rw [State.advance_of_not_setsPc _ (ir := Opcode.st.byte) (by decide)]
  rfl

/-- An output row on a legal register appends one event and advances pc by 2 (42_data_movement.md R155, R156). -/
theorem output_legal_next {ir : Byte} (hbit : setsPcBit ir = false) (hcount : operandCount ir = 1)
    (kind : Byte → OutEvent) (a : RegIdx) (s : State) :
    output ir kind (regByte a) s = .next { s with out := s.out ++ [kind (s.reg a)], pc := s.pc + 2 } := by
  rw [output_legal, State.advance_of_not_setsPc _ hbit, hcount]
  rfl

/-! ### The obligations -/

/-- Settles O42: the register check is LDI's only fault, and its immediate byte is written as it is. -/
theorem ldiLoadsTheImmediateByte : Obligations.LdiLoadsTheImmediateByte :=
  ⟨decode_of_operandCount_eq_two (o := .ldi) rfl, exec_ldi_legal,
    fun _ => checksRegister_of_exec_eq fun _ _ => rfl⟩

/-- Settles O43: a byte address is in range, so the two register checks are LD's only faults. -/
theorem ldReadsMemoryAtTheSecondRegister : Obligations.LdReadsMemoryAtTheSecondRegister :=
  ⟨decode_of_operandCount_eq_two (o := .ld) rfl, exec_ld_legal, checksBothRegisters_of_exec_eq fun _ _ _ => rfl⟩

/-- Settles O44: the new memory is the old one written at `x[a]`, and a write changes what is read at its address only. -/
theorem stStoresOneByteAtTheFirstRegister : Obligations.StStoresOneByteAtTheFirstRegister := by
  refine ⟨decode_of_operandCount_eq_two (o := .st) rfl, fun a b s => ?_,
    checksBothRegisters_of_exec_eq fun _ _ _ => rfl⟩
  refine ⟨s.mem.write (s.reg a).toNat (s.reg b), exec_st_legal a b s, ?_, fun c hc => ?_⟩
  · exact s.mem.read_write_self _ _
  · exact s.mem.read_write_ne _ _ hc

/-- Settles O47: PRN is the output row of decimal events. -/
theorem prnEmitsADecimalEvent : Obligations.PrnEmitsADecimalEvent :=
  ⟨decode_of_operandCount_eq_one (o := .prn) rfl, output_legal_next (by decide) rfl .dec,
    checksRegister_of_exec_eq fun _ _ => rfl⟩

/-- Settles O48: PRA is the output row of character events. -/
theorem praEmitsACharacterEvent : Obligations.PraEmitsACharacterEvent :=
  ⟨decode_of_operandCount_eq_one (o := .pra) rfl, output_legal_next (by decide) rfl .chr,
    checksRegister_of_exec_eq fun _ _ => rfl⟩

end Sys2Proof.Machine
end

section
/-! PROOFS. Jumps and RET (43_control_transfer.md R170, R172, R173, R175): when JNE and JLE jump, where a jump on a legal
register leads, and what RET takes from the stack. -/

namespace Sys2Proof.Machine

/-! ### The conditions -/

/-- JNE jumps exactly when bit 0 of FL is clear (43_control_transfer.md R172). -/
theorem condNotEqual_eq_true_iff {fl : Byte} : condNotEqual fl = true ↔ fl.getLsbD 0 = false :=
  iff_of_eq (Bool.not_eq_true' _)

/-- JNE falls through exactly when bit 0 of FL is set. -/
theorem condNotEqual_eq_false_iff {fl : Byte} : condNotEqual fl = false ↔ fl.getLsbD 0 = true :=
  iff_of_eq (Bool.not_eq_false' _)

/-- JLE jumps exactly when bit 2 or bit 0 of FL is set (43_control_transfer.md R173). -/
theorem condLessOrEqual_eq_true_iff {fl : Byte} :
    condLessOrEqual fl = true ↔ fl.getLsbD 2 = true ∨ fl.getLsbD 0 = true := Bool.or_eq_true_iff

/-- JLE falls through exactly when bits 2 and 0 of FL are clear. -/
theorem condLessOrEqual_eq_false_iff {fl : Byte} :
    condLessOrEqual fl = false ↔ fl.getLsbD 2 = false ∧ fl.getLsbD 0 = false := Bool.or_eq_false_iff

/-! ### The two paths of a jump -/

section jumpPaths
variable {ir : Byte} {cond : Byte → Bool} {s : State}

/-- A jump whose condition holds sets pc to its register, with no advance on top (40_sequencer.md R105). -/
theorem jumpIf_taken (hbit : setsPcBit ir = true) (a : RegIdx) (h : cond s.fl = true) :
    jumpIf ir cond (regByte a) s = .next { s with pc := (s.reg a).toNat } := by
  rw [jumpIf_legal, State.advance_of_setsPc _ hbit, if_pos h]

/-- A jump whose condition fails sets pc to the byte after its operand. -/
theorem jumpIf_not_taken (hbit : setsPcBit ir = true) (a : RegIdx) (h : cond s.fl = false) :
    jumpIf ir cond (regByte a) s = .next { s with pc := s.pc + 2 } := by
  rw [jumpIf_legal, State.advance_of_setsPc _ hbit, h]
  rfl

end jumpPaths

/-! ### RET -/

/-- RET pops pc: SP is a byte, so the read is in range and RET cannot fault (43_control_transfer.md R175, 20_memory.md R53). -/
theorem exec_ret (s : State) :
    exec .ret s =
      .next { s with x := s.x.set 7 (trunc8 ((s.reg 7).toNat + 1)), pc := (s.mem.read (s.reg 7).toNat).toNat } := by
  simp only [exec, execRet, memRead_byte, except_ok_bind, complete_ok]
  rw [State.advance_of_setsPc _ (ir := Opcode.ret.byte) (by decide)]
  rfl

/-! ### The obligations -/

/-- Settles O51: JMP is the jump whose condition always holds. -/
theorem jmpSetsPcToTheRegister : Obligations.JmpSetsPcToTheRegister :=
  ⟨decode_of_operandCount_eq_one (o := .jmp) rfl,
    fun a _ => jumpIf_taken (ir := Opcode.jmp.byte) (cond := fun _ => true) (by decide) a rfl,
    checksRegister_of_exec_eq fun _ _ => rfl⟩

/-- Settles O53: JNE is the jump on E clear, and it checks its register before it reads E. -/
theorem jneJumpsWhenNotEqual : Obligations.JneJumpsWhenNotEqual := by
  refine ⟨decode_of_operandCount_eq_one (o := .jne) rfl, fun a s => ⟨fun h => ?_, fun h => ?_⟩,
    checksRegister_of_exec_eq fun _ _ => rfl⟩
  · exact jumpIf_taken (ir := Opcode.jne.byte) (by decide) a (condNotEqual_eq_true_iff.mpr h)
  · exact jumpIf_not_taken (ir := Opcode.jne.byte) (by decide) a (condNotEqual_eq_false_iff.mpr h)

/-- Settles O54: JLE is the jump on L or E set, and it checks its register before it reads either. -/
theorem jleJumpsWhenLessOrEqual : Obligations.JleJumpsWhenLessOrEqual := by
  refine ⟨decode_of_operandCount_eq_one (o := .jle) rfl, fun a s => ⟨fun h => ?_, fun h => ?_⟩,
    checksRegister_of_exec_eq fun _ _ => rfl⟩
  · exact jumpIf_taken (ir := Opcode.jle.byte) (by decide) a (condLessOrEqual_eq_true_iff.mpr h)
  · exact jumpIf_not_taken (ir := Opcode.jle.byte) (by decide) a (condLessOrEqual_eq_false_iff.mpr h)

/-- Settles O56: RET has no operand to decode or check, and its new SP is the narrowed successor. -/
theorem retPopsPc : Obligations.RetPopsPc :=
  ⟨decode_of_operandCount_eq_zero (o := .ret) rfl, fun s => ⟨_, trunc8_toNat _, exec_ret s⟩⟩

end Sys2Proof.Machine
end

section
/-! PROOFS. Precise faults (60_exceptions.md R204): a step that enters FAULTED raised a fault in the state before it. -/

namespace Sys2Proof.Machine

/-- An instruction enters FAULTED only by raising a fault: HLT enters HALTED, and a completion keeps `run`
(40_sequencer.md R107, 60_exceptions.md R204). -/
theorem exec_eq_raiseFault_of_faulted {i : Instr} {s t : State} (hs : s.run ≠ .faulted) (h : exec i s = .next t)
    (ht : t.run = .faulted) : ∃ f, t = s.raiseFault f := by
  rcases exec_cases i s with ⟨f, raised, -⟩ | ⟨-, halted⟩ | ⟨-, u, completed, hu⟩
  · cases raised.symm.trans h
    exact ⟨f, rfl⟩
  · cases halted.symm.trans h
    cases ht
  · cases completed.symm.trans h
    have run_kept : (u.advance i.opcodeByte).run = s.run := (State.advance_run _ u).trans hu.run
    exact absurd (run_kept.symm.trans ht) hs

/-- A step enters FAULTED only by raising a fault, at fetch, decode or execute (60_exceptions.md R204). -/
theorem step_eq_raiseFault_of_faulted {s t : State} (h : step s = .next t) (ht : t.run = .faulted) :
    ∃ f, t = s.raiseFault f := by
  obtain ⟨running, ⟨i, -, hexec⟩ | ⟨f, -, raised⟩⟩ := step_cases h
  · exact exec_eq_raiseFault_of_faulted (by simp [running]) hexec ht
  · exact ⟨f, raised⟩

/-! ### The obligation -/

/-- Settles O25: a faulting step is `raiseFault` on the old state, which writes `run` and `fault` alone. -/
theorem faultsArePrecise : Obligations.FaultsArePrecise := by
  unfold Obligations.FaultsArePrecise
  intro s t h ht
  obtain ⟨f, rfl⟩ := step_eq_raiseFault_of_faulted h ht
  exact ⟨f, rfl, s.raiseFault_x f, s.raiseFault_fl f, s.raiseFault_pc f, s.raiseFault_out f,
    fun a => congrArg (·.read a) (s.raiseFault_mem f)⟩

end Sys2Proof.Machine
end

section
/-! PROOFS. Encoder and decoder (30_encoding.md R70 to R77): an instruction is a row with the operand bytes that the row
counts, each direction of the round trip, and the fields of the opcode bytes. -/

namespace Sys2Proof

/-! ### An instruction as a row and its counted operand bytes -/

/-- Bits 7:6 of the opcode byte count the operand bytes (30_encoding.md R77). -/
theorem operandCount_opcodeByte (i : Instr) : operandCount i.opcodeByte = i.parts.2.length := by
  cases i <;> simp [operandCount, Instr.opcodeByte, Instr.parts, Opcode.byte]

/-- A row with the operand bytes of an instruction of that row is that instruction (30_encoding.md R75). -/
theorem instr_parts (i : Instr) : i.parts.1.instr (i.parts.2.getD 0 0) (i.parts.2.getD 1 0) = i := by
  cases i <;> rfl

/-- A row's instruction is encoded as the row's byte and the operand bytes that the byte counts (30_encoding.md R70). -/
theorem encode_instr (o : Opcode) (x y : Byte) : encode (o.instr x y) = o.byte :: [x, y].take (operandCount o.byte) := by
  cases o <;> rfl

/-- A row ignores the operand bytes it does not count (30_encoding.md R75). -/
theorem instr_congr {o : Opcode} {x x' y y' : Byte} (hx : 1 ≤ operandCount o.byte → x = x')
    (hy : 2 ≤ operandCount o.byte → y = y') : o.instr x y = o.instr x' y' := by
  rw [← Machine.instr_of_counted_operands o x y, ← Machine.instr_of_counted_operands o x' y']
  exact congrArg₂ o.instr (if_ctx_congr Iff.rfl hx fun _ => rfl) (if_ctx_congr Iff.rfl hy fun _ => rfl)

/-! ### The round trip -/

/-- The decoder takes a row's byte and as many operand bytes as the byte counts (30_encoding.md R70, R73). -/
theorem decode_byte_append {o : Opcode} {ops : List Byte} (h : operandCount o.byte = ops.length) (rest : List Byte) :
    decode (o.byte :: (ops ++ rest)) = .ok (o.instr (ops.getD 0 0) (ops.getD 1 0), rest) := by
  have at_most_two := operandCount_byte_le o
  match ops with
  | [] => exact decode_of_operandCount_eq_zero h rest
  | [op1] => exact decode_of_operandCount_eq_one h op1 rest
  | [op1, op2] => exact decode_of_operandCount_eq_two h op1 op2 rest
  | _ :: _ :: _ :: _ => simp only [List.length_cons] at h; omega

/-- A byte string that decodes is a row's byte, the operand bytes that the byte counts, and the rest (30_encoding.md R70). -/
theorem decode_eq_ok {bs rest : List Byte} {i : Instr} (h : decode bs = .ok (i, rest)) :
    ∃ (o : Opcode) (x y : Byte), i = o.instr x y ∧ bs = o.byte :: ([x, y].take (operandCount o.byte) ++ rest) := by
  match bs with
  | [] => cases h
  | ir :: tail =>
    cases legal : decodeOpcode ir with
    | error e => simp [decode, legal] at h
    | ok o =>
      obtain rfl := decodeOpcode_eq_ok legal
      simp only [decode, legal] at h
      split at h <;> simp only [Except.ok.injEq, Prod.mk.injEq, reduceCtorEq] at h <;> obtain ⟨rfl, rfl⟩ := h
      · next count => exact ⟨o, 0, 0, rfl, by simp [count]⟩
      · next op1 _ count => exact ⟨o, op1, 0, rfl, by simp [count]⟩
      · next op1 op2 _ count => exact ⟨o, op1, op2, rfl, by simp [count]⟩

/-! ### The fields of the opcode bytes -/

/-- Bit 5 marks the 12 ALU rows (30_encoding.md R77). -/
theorem aluBit_byte_iff (o : Opcode) :
    aluBit o.byte = true ↔ o ∈ [.add, .mul, .inc, .dec, .cmp, .and, .or, .xor, .not, .shl, .shr, .mod] := by
  cases o <;> decide

/-- Bit 4 marks the 6 rows that set pc (30_encoding.md R77). -/
theorem setsPcBit_byte_iff (o : Opcode) : setsPcBit o.byte = true ↔ o ∈ [.call, .ret, .jmp, .jeq, .jne, .jle] := by
  cases o <;> decide

/-! ### The obligations -/

/-- Settles O1: the encoding is the row's byte and its counted operand bytes, which is what the decoder takes. -/
theorem decodeOfEncodeGivesTheInstruction : Obligations.DecodeOfEncodeGivesTheInstruction := by
  unfold Obligations.DecodeOfEncodeGivesTheInstruction
  intro i rest
  have decoded := decode_byte_append (operandCount_opcodeByte i) rest
  rwa [instr_parts] at decoded

/-- Settles O2: the decoder answers a row with operand bytes it took, and that row's encoding lists the same bytes. -/
theorem decodedBytesAreTheEncoding : Obligations.DecodedBytesAreTheEncoding := by
  unfold Obligations.DecodedBytesAreTheEncoding
  intro bs i rest h
  obtain ⟨o, x, y, rfl, hbs⟩ := decode_eq_ok h
  rw [hbs, encode_instr, List.cons_append]

/-- Settles O3: the count is that of the operand bytes, and the two bits are read off the 27 rows. -/
theorem opcodeFieldsMatchTheInstruction : Obligations.OpcodeFieldsMatchTheInstruction := by
  unfold Obligations.OpcodeFieldsMatchTheInstruction
  intro i
  refine ⟨?_, aluBit_byte_iff i.parts.1, setsPcBit_byte_iff i.parts.1⟩
  calc (encode i).length = 1 + i.parts.2.length := Nat.add_comm _ _
    _ = 1 + operandCount i.opcodeByte := by rw [operandCount_opcodeByte]

/-- Settles O5: each word is its row's byte with as many operand bytes as the byte counts. -/
theorem writtenOutWordsDecode : Obligations.WrittenOutWordsDecode :=
  ⟨decode_of_operandCount_eq_two (o := .ldi) rfl 0 8 [], decode_of_operandCount_eq_two (o := .add) rfl 0 1 [],
    decode_of_operandCount_eq_one (o := .prn) rfl 0 [], decode_of_operandCount_eq_zero (o := .hlt) rfl [],
    decode_of_operandCount_eq_one (o := .jle) rfl 5 [], decode_of_operandCount_eq_two (o := .st) rfl 3 7 []⟩

end Sys2Proof
end

section
/-! PROOFS. Fetch (40_sequencer.md R100 to R103, R109): the ways fetch and decode end, said once; what the bytes at pc decode
to; a stopped core, and the one way into HALTED. -/

namespace Sys2Proof.Machine

/-! ### The ways fetch and decode end -/

/-- The opcode fetch fails, the byte is illegal, an operand fetch fails, or the whole instruction is fetched
(40_sequencer.md R101 to R103). -/
theorem fetchDecode_cases (s : State) :
    (255 < s.pc ∧ fetchDecode s = .error ⟨.outOfRange, s.pc⟩) ∨
    (s.pc ≤ 255 ∧ ∃ e, decodeOpcode (s.mem.read s.pc) = .error e ∧
      fetchDecode s = .error (illegalOpcodeRecord (s.mem.read s.pc) e)) ∨
    (s.pc ≤ 255 ∧ ∃ o : Opcode, s.mem.read s.pc = o.byte ∧ 255 < s.pc + operandCount o.byte ∧
      fetchDecode s = .error ⟨.outOfRange, 256⟩) ∨
    (s.pc ≤ 255 ∧ ∃ o : Opcode, s.mem.read s.pc = o.byte ∧ s.pc + operandCount o.byte ≤ 255 ∧
      fetchDecode s = .ok (o.instr (s.mem.read (s.pc + 1)) (s.mem.read (s.pc + 2)))) := by
  by_cases hp : s.pc ≤ 255
  case neg => exact .inl ⟨by omega, fetchDecode_pastEnd (by omega)⟩
  cases legal : decodeOpcode (s.mem.read s.pc) with
  | error e => exact .inr (.inl ⟨hp, e, rfl, fetchDecode_illegal hp legal⟩)
  | ok o =>
    have hb := (decodeOpcode_eq_ok legal).symm
    by_cases hc : s.pc + operandCount o.byte ≤ 255
    · exact .inr (.inr (.inr ⟨hp, o, hb, hc, fetchDecode_fits hb hc⟩))
    · exact .inr (.inr (.inl ⟨hp, o, hb, by omega, fetchDecode_crosses hb hp (by omega)⟩))

/-! ### Decoding the bytes at pc -/

/-- The code bytes are the bytes of memory from pc, as far as address 255 (30_encoding.md R70). -/
theorem codeBytes_getElem? {s : State} {k : Nat} {b : Byte} (h : (codeBytes s)[k]? = some b) :
    s.pc + k ≤ 255 ∧ s.mem.read (s.pc + k) = b := by
  have last : Config.lastAddress = 255 := rfl
  simp only [codeBytes, List.getElem?_map, Option.map_eq_some_iff, List.getElem?_eq_some_iff, List.length_range,
    List.getElem_range] at h
  obtain ⟨_, ⟨hk, rfl⟩, hb⟩ := h
  exact ⟨by omega, hb⟩

/-- What the code bytes decode to is what is fetched at pc (40_sequencer.md R101 to R103). -/
theorem fetchDecode_of_decode_codeBytes {s : State} {i : Instr} {rest : List Byte}
    (h : decode (codeBytes s) = .ok (i, rest)) : fetchDecode s = .ok i := by
  obtain ⟨o, x, y, rfl, hbytes⟩ := decode_eq_ok h
  have at_pc : s.pc + 0 ≤ 255 ∧ s.mem.read (s.pc + 0) = o.byte := codeBytes_getElem? (by simp [hbytes])
  have first (h1 : 1 ≤ operandCount o.byte) : s.pc + 1 ≤ 255 ∧ s.mem.read (s.pc + 1) = x := by
    obtain ⟨n, count⟩ := Nat.exists_eq_add_of_le' h1
    exact codeBytes_getElem? (by simp [hbytes, count])
  have second (h2 : 2 ≤ operandCount o.byte) : s.pc + 2 ≤ 255 ∧ s.mem.read (s.pc + 2) = y := by
    obtain ⟨n, count⟩ := Nat.exists_eq_add_of_le' h2
    exact codeBytes_getElem? (by simp [hbytes, count])
  have fits : s.pc + operandCount o.byte ≤ 255 := by
    have length_eq := congrArg List.length hbytes
    have two := operandCount_byte_le o
    simp only [codeBytes, Config.lastAddress, List.length_map, List.length_range, List.length_cons, List.length_append,
      List.length_take] at length_eq
    omega
  rw [fetchDecode_fits at_pc.2 fits, instr_congr (fun n => (first n).2) (fun n => (second n).2)]

/-! ### HALTED -/

/-- An instruction enters HALTED only if it is HLT, which then changes `run` alone (40_sequencer.md R109). -/
theorem exec_halted {i : Instr} {s t : State} (hs : s.run ≠ .halted) (h : exec i s = .next t) (ht : t.run = .halted) :
    i = .hlt ∧ t = { s with run := .halted } := by
  rcases exec_cases i s with ⟨f, raised, -⟩ | ⟨rfl, halted⟩ | ⟨-, u, completed, hu⟩
  · cases raised.symm.trans h
    cases ht
  · cases halted.symm.trans h
    exact ⟨rfl, rfl⟩
  · cases completed.symm.trans h
    exact absurd (hu.run.symm.trans ((State.advance_run _ u).symm.trans ht)) hs

/-- A step enters HALTED only from an HLT byte that was fetched (40_sequencer.md R109, R110). -/
theorem step_halted {s t : State} (h : step s = .next t) (ht : t.run = .halted) :
    (s.pc ≤ 255 ∧ s.mem.read s.pc = Opcode.hlt.byte) ∧ t = { s with run := .halted } := by
  obtain ⟨running, ⟨i, fetched, executed⟩ | ⟨f, -, rfl⟩⟩ := step_cases h
  · obtain ⟨rfl, rfl⟩ := exec_halted (by simp [running]) executed ht
    obtain ⟨at_pc, fits⟩ := fetchDecode_eq_ok fetched
    exact ⟨⟨(Nat.le_add_right _ _).trans fits, at_pc⟩, rfl⟩
  · cases ht

/-- A running core at an HLT byte halts; there is no operand to fetch (40_sequencer.md R103, R109). -/
theorem step_of_hlt_byte {s : State} (hrun : s.run = .running) (hpc : s.pc ≤ 255)
    (h : s.mem.read s.pc = Opcode.hlt.byte) : step s = .next { s with run := .halted } :=
  step_of_fetchDecode_ok hrun (fetchDecode_fits h hpc)

/-! ### The obligations -/

/-- Settles O6: the bytes from pc that decode are those the core fetches. -/
theorem stepRunsTheDecodedInstruction : Obligations.StepRunsTheDecodedInstruction := by
  unfold Obligations.StepRunsTheDecodedInstruction
  exact fun s i rest hrun h => step_of_fetchDecode_ok hrun (fetchDecode_of_decode_codeBytes h)

/-- Settles O20: HLT has no operand byte, and its meaning writes `run` alone. -/
theorem hltHaltsWithPcUnchanged : Obligations.HltHaltsWithPcUnchanged :=
  ⟨decode_of_operandCount_eq_zero (o := .hlt) rfl, fun _ => rfl⟩

/-- Settles O21: fetch answers HLT exactly at its byte, and no other instruction or fault ends in HALTED. -/
theorem onlyHltEntersHalted : Obligations.OnlyHltEntersHalted := by
  unfold Obligations.OnlyHltEntersHalted
  refine fun s t h => ⟨⟨fun ht => (step_halted h ht).1, fun ⟨hpc, hbyte⟩ => ?_⟩, fun ht => (step_halted h ht).2⟩
  cases (step_of_hlt_byte (step_cases h).1 hpc hbyte).symm.trans h
  rfl

/-- Settles O22: `step` looks at `run` first. -/
theorem stoppedCoreTakesNoStep : Obligations.StoppedCoreTakesNoStep := by
  unfold Obligations.StoppedCoreTakesNoStep
  exact fun s => ⟨fun h => by rw [step, h], fun h => by rw [step, h]⟩

/-- Settles O23: an instruction that reaches past 255 faults at 256, its first missing byte; one without operands fits. -/
theorem fetchesPastTheEndFault : Obligations.FetchesPastTheEndFault := by
  unfold Obligations.FetchesPastTheEndFault
  refine fun s hrun => ⟨step_of_pc_pastEnd hrun, fun o hpc hbyte => ?_⟩
  have crosses (hc : 255 < s.pc + o.byte.toNat / 64) : step s = .next (s.raiseFault ⟨.outOfRange, 256⟩) :=
    step_of_fetchDecode_error hrun (fetchDecode_crosses hbyte hpc hc)
  refine ⟨fun count hp => crosses (by omega), fun count hp => crosses (by omega), fun count => ?_⟩
  have none_counted : operandCount o.byte = 0 := count
  rw [step_of_fetchDecode_ok hrun (fetchDecode_fits hbyte (by omega)),
    instr_congr (x' := 0) (y' := 0) (by omega) (by omega)]

end Sys2Proof.Machine
end

section
/-! PROOFS. Memory as data (10_state.md R36, log 4) and boot (70_reset_and_hazards.md R230 to R232): a canonical memory is what
it reads as, and an image written from an address reads back from there. -/

namespace Sys2Proof.Machine

/-! ### Canonical memories -/

/-- Below the first address of a canonical memory every byte is 0. -/
theorem Memory.read_of_lt_wfFrom {m : Memory} {lo a : Nat} (h : Memory.wfFrom lo m = true) (ha : a < lo) :
    m.read a = 0 := by
  induction m generalizing lo with
  | nil => rfl
  | cons c m ih =>
    obtain ⟨k, v⟩ := c
    obtain ⟨hk, -, -, tail⟩ := (Memory.wfFrom_cons lo k v m).mp h
    rw [Memory.read_cons, if_neg (by omega)]
    exact ih tail (by omega)

/-- Where memory `n` is canonical from `lo` up, a memory that reads like it has no first cell below `lo`: that cell's byte
is not 0, and `n` reads 0 there. -/
theorem Memory.le_of_read_head {m n : Memory} {k : Nat} {v : Byte} {lo : Nat} (hv : v ≠ 0)
    (hn : Memory.wfFrom lo n = true) (h : ∀ a, Memory.read ((k, v) :: m) a = n.read a) : lo ≤ k := by
  by_contra below
  apply hv
  rw [← Memory.read_of_lt_wfFrom hn (by omega : k < lo), ← h k, Memory.read_cons, if_pos rfl]

/-- Canonical memories that read alike are equal: they have the same first cell, and their tails read alike (log 4). -/
theorem Memory.eq_of_read_eq {m n : Memory} {lo : Nat} (hm : Memory.wfFrom lo m = true) (hn : Memory.wfFrom lo n = true)
    (h : ∀ a, m.read a = n.read a) : m = n := by
  induction m generalizing n lo with
  | nil =>
    cases n with
    | nil => rfl
    | cons c n =>
      obtain ⟨k, v⟩ := c
      obtain ⟨-, -, hv, -⟩ := (Memory.wfFrom_cons lo k v n).mp hn
      have := Memory.le_of_read_head hv (rfl : Memory.wfFrom (k + 1) [] = true) fun a => (h a).symm
      omega
  | cons c m ih =>
    obtain ⟨k, v⟩ := c
    obtain ⟨-, hk, hv, tail⟩ := (Memory.wfFrom_cons lo k v m).mp hm
    cases n with
    | nil =>
      have := Memory.le_of_read_head hv (rfl : Memory.wfFrom (k + 1) [] = true) h
      omega
    | cons d n =>
      obtain ⟨k', v'⟩ := d
      obtain ⟨-, hk', hv', tail'⟩ := (Memory.wfFrom_cons lo k' v' n).mp hn
      have same_key : k = k' := by
        have := Memory.le_of_read_head hv ((Memory.wfFrom_cons k' k' v' n).mpr ⟨le_rfl, hk', hv', tail'⟩) h
        have := Memory.le_of_read_head hv' ((Memory.wfFrom_cons k k v m).mpr ⟨le_rfl, hk, hv, tail⟩) fun a => (h a).symm
        omega
      subst same_key
      have same_byte : v = v' := by simpa [Memory.read_cons] using h k
      subst same_byte
      have same_tail (a : Nat) : Memory.read m a = Memory.read n a := by
        by_cases ha : a = k
        · rw [Memory.read_of_lt_wfFrom tail (by omega), Memory.read_of_lt_wfFrom tail' (by omega)]
        · simpa [Memory.read_cons, Ne.symm ha] using h a
      rw [ih tail tail' same_tail]

/-! ### An image in memory -/

/-- An image written from address `a` reads back from there; every other byte is as before (70_reset_and_hazards.md R232). -/
theorem Memory.read_writeImage (bs : List Byte) (a : Nat) (m : Memory) (k : Nat) :
    (Memory.writeImage a bs m).read k = if k < a then m.read k else bs.getD (k - a) (m.read k) := by
  induction bs generalizing a m with
  | nil => simp [Memory.writeImage]
  | cons b bs ih =>
    rw [Memory.writeImage, ih, Memory.read_write]
    rcases Nat.lt_trichotomy k a with below | rfl | above
    · simp [below, Nat.lt_succ_of_lt below, below.ne]
    · simp
    · have next : k - a = k - (a + 1) + 1 := by omega
      simp [Nat.not_lt_of_gt above, above.ne', next, Nat.not_lt.mpr above]

/-- Boot with an image that fits is the reset state with the image written from address 0 (70_reset_and_hazards.md R232). -/
theorem boot_of_length_le {image : List Byte} (h : image.length ≤ 256) (s : State) :
    boot image s = some { State.reset with mem := Memory.writeImage 0 image [] } := if_pos h

/-! ### The obligations -/

/-- Settles O8: the canonical form lists each address that does not read 0 once, in rising order. -/
theorem canonicalMemoriesThatReadAlikeAreEqual : Obligations.CanonicalMemoriesThatReadAlikeAreEqual := by
  unfold Obligations.CanonicalMemoriesThatReadAlikeAreEqual
  exact fun m n hm hn h => Memory.eq_of_read_eq hm hn h

/-- Settles O15: reset is the one reset state, whose memory lists no cell. -/
theorem resetPutsEveryComponentAtItsValue : Obligations.ResetPutsEveryComponentAtItsValue := by
  unfold Obligations.ResetPutsEveryComponentAtItsValue
  exact fun _ => ⟨rfl, rfl, rfl, Memory.read_nil, rfl, rfl, rfl⟩

/-- Settles O16: an image written into the empty memory reads as the image, then 0. -/
theorem bootPlacesTheImageFromAddressZero : Obligations.BootPlacesTheImageFromAddressZero := by
  unfold Obligations.BootPlacesTheImageFromAddressZero
  refine fun image s => ⟨fun h => ⟨_, boot_of_length_le h s, ?_, fun k => ?_⟩, fun h => if_neg (by omega)⟩
  · exact Memory.writeImage_wf image 0 [] (by omega) rfl
  · rw [Memory.read_writeImage, if_neg (Nat.not_lt_zero k), Memory.read_nil, Nat.sub_zero]

end Sys2Proof.Machine
end

section
/-! PROOFS. Execution as the spec's fault list and one table (40_sequencer.md R104, 60_exceptions.md R203): an
instruction raises its first fault in the order of R203, and with none it reaches the state its row of the table gives.
What no instruction reads, and which ones write memory or `out`, is read off the table. -/

namespace Sys2Proof.Machine

/-! ### The table -/

/-- The register that a legal operand byte names. -/
def regOf (op : Byte) : RegIdx := Fin.ofNat 8 op.toNat

@[simp] theorem regOf_regByte (r : RegIdx) : regOf (regByte r) = r := by
  simp [regOf]

/-- A legal operand byte passes the check with the register it names (30_encoding.md R74). -/
theorem reg_of_le {op : Byte} (h : op.toNat ≤ 7) : reg op = .ok (regOf op) := by
  rw [reg_legal h]
  exact congrArg _ (Fin.ext (Nat.mod_eq_of_lt (by omega)).symm)

/-- The state after an instruction that raises no fault (41_alu.md, 42_data_movement.md, 43_control_transfer.md). -/
def completion (s : State) : Instr → State
  | .nop => { s with pc := s.pc + 1 }
  | .hlt => { s with run := .halted }
  | .ret => { s with x := s.incSp.x, pc := (s.mem.read s.sp.toNat).toNat }
  | .push op1 =>
    { s with x := s.decSp.x, mem := s.mem.write (pushAddress s) (s.decSp.reg (regOf op1)), pc := s.pc + 2 }
  | .pop op1 => { s with x := (s.setReg (regOf op1) (s.mem.read s.sp.toNat)).incSp.x, pc := s.pc + 2 }
  | .prn op1 => { s with out := s.out ++ [.dec (s.reg (regOf op1))], pc := s.pc + 2 }
  | .pra op1 => { s with out := s.out ++ [.chr (s.reg (regOf op1))], pc := s.pc + 2 }
  | .call op1 =>
    { s with
      x := s.decSp.x
      mem := s.mem.write (pushAddress s) (trunc8 (s.pc + 2))
      pc := (s.decSp.reg (regOf op1)).toNat }
  | .jmp op1 => { s with pc := (s.reg (regOf op1)).toNat }
  | .jeq op1 => { s with pc := if condEqual s.fl then (s.reg (regOf op1)).toNat else s.pc + 2 }
  | .jne op1 => { s with pc := if condNotEqual s.fl then (s.reg (regOf op1)).toNat else s.pc + 2 }
  | .jle op1 => { s with pc := if condLessOrEqual s.fl then (s.reg (regOf op1)).toNat else s.pc + 2 }
  | .inc op1 => { s with x := s.x.set (regOf op1) (aluInc (s.reg (regOf op1))), pc := s.pc + 2 }
  | .dec op1 => { s with x := s.x.set (regOf op1) (aluDec (s.reg (regOf op1))), pc := s.pc + 2 }
  | .not op1 => { s with x := s.x.set (regOf op1) (aluNot (s.reg (regOf op1))), pc := s.pc + 2 }
  | .ldi op1 imm => { s with x := s.x.set (regOf op1) imm, pc := s.pc + 3 }
  | .ld op1 op2 => { s with x := s.x.set (regOf op1) (s.mem.read (s.reg (regOf op2)).toNat), pc := s.pc + 3 }
  | .st op1 op2 =>
    { s with mem := s.mem.write (s.reg (regOf op1)).toNat (s.reg (regOf op2)), pc := s.pc + 3 }
  | .add op1 op2 => { s with x := s.x.set (regOf op1) (aluAdd (s.reg (regOf op1)) (s.reg (regOf op2))), pc := s.pc + 3 }
  | .mul op1 op2 => { s with x := s.x.set (regOf op1) (aluMul (s.reg (regOf op1)) (s.reg (regOf op2))), pc := s.pc + 3 }
  | .mod op1 op2 => { s with x := s.x.set (regOf op1) (aluMod (s.reg (regOf op1)) (s.reg (regOf op2))), pc := s.pc + 3 }
  | .cmp op1 op2 => { s with fl := compareFlags (s.reg (regOf op1)) (s.reg (regOf op2)), pc := s.pc + 3 }
  | .and op1 op2 => { s with x := s.x.set (regOf op1) (aluAnd (s.reg (regOf op1)) (s.reg (regOf op2))), pc := s.pc + 3 }
  | .or op1 op2 => { s with x := s.x.set (regOf op1) (aluOr (s.reg (regOf op1)) (s.reg (regOf op2))), pc := s.pc + 3 }
  | .xor op1 op2 => { s with x := s.x.set (regOf op1) (aluXor (s.reg (regOf op1)) (s.reg (regOf op2))), pc := s.pc + 3 }
  | .shl op1 op2 => { s with x := s.x.set (regOf op1) (aluShl (s.reg (regOf op1)) (s.reg (regOf op2))), pc := s.pc + 3 }
  | .shr op1 op2 => { s with x := s.x.set (regOf op1) (aluShr (s.reg (regOf op1)) (s.reg (regOf op2))), pc := s.pc + 3 }

/-- The state after a fault, or after the completion when there is none. -/
def conclude (s : State) (i : Instr) (fault : Option FaultRecord) : State :=
  fault.elim (completion s i) s.raiseFault

/-! ### The register checks come first -/

section checks
variable {i : Instr} {ir op1 op2 : Byte} {s : State}

/-- An instruction with one register operand: its check, then what its own fault decides (60_exceptions.md R203). -/
theorem exec_of_one_register {k : RegIdx → Except FaultRecord State}
    (hexec : exec i s = complete ir s (reg op1 >>= k)) (hops : i.regOperands = [op1])
    (legal : complete ir s (k (regOf op1)) = .next (conclude s i (ownFault s i))) :
    exec i s = .next (conclude s i (executeFault s i)) := by
  rw [hexec]
  by_cases h1 : op1.toNat ≤ 7
  · rw [reg_of_le h1, except_ok_bind, legal]
    simp [executeFault, hops, h1]
  · rw [reg_illegal (by omega), except_error_bind, complete_error]
    simp [executeFault, hops, Nat.lt_of_not_le h1, conclude]

/-- An instruction with two register operands: both checks in order, then what its own fault decides. -/
theorem exec_of_two_registers {k : RegIdx → RegIdx → Except FaultRecord State}
    (hexec : exec i s = complete ir s (do let a ← reg op1; let b ← reg op2; k a b)) (hops : i.regOperands = [op1, op2])
    (legal : complete ir s (k (regOf op1) (regOf op2)) = .next (conclude s i (ownFault s i))) :
    exec i s = .next (conclude s i (executeFault s i)) := by
  rw [hexec]
  by_cases h1 : op1.toNat ≤ 7
  · by_cases h2 : op2.toNat ≤ 7
    · rw [reg_of_le h1, except_ok_bind, reg_of_le h2, except_ok_bind, legal]
      simp [executeFault, hops, h1, h2]
    · rw [reg_of_le h1, except_ok_bind, reg_illegal (by omega), except_error_bind, complete_error]
      simp [executeFault, hops, h1, Nat.lt_of_not_le h2, conclude]
  · rw [reg_illegal (by omega), except_error_bind, complete_error]
    simp [executeFault, hops, Nat.lt_of_not_le h1, conclude]

/-- A check for the instruction's own fault stands before its writes (60_exceptions.md R203, item 5). -/
theorem complete_ownFault {c : Prop} [Decidable c] {f : FaultRecord} {r : Except FaultRecord State}
    (h : complete ir s r = .next (completion s i)) :
    complete ir s (if c then .error f else r) = .next (conclude s i (if c then some f else none)) := by
  split
  · rfl
  · exact h

end checks

/-- Executing an instruction raises the first fault of the spec's list, or ends as its row of the table says
(60_exceptions.md R203, items 4 and 5). -/
theorem exec_eq (i : Instr) (s : State) : exec i s = .next (conclude s i (executeFault s i)) := by
  cases i
  case nop | hlt => rfl
  case ret => simp only [exec, execRet, memRead_byte, except_ok_bind]; rfl
  case jmp | jeq | jne | jle | prn | pra | inc | dec | not | ldi => exact exec_of_one_register rfl rfl rfl
  case push => exact exec_of_one_register rfl rfl (by rw [push_ok]; rfl)
  case pop => exact exec_of_one_register rfl rfl (by rw [memRead_byte]; rfl)
  case call => exact exec_of_one_register rfl rfl (complete_ownFault (by rw [push_ok]; rfl))
  case ld => exact exec_of_two_registers rfl rfl (by rw [memRead_byte]; rfl)
  case st => exact exec_of_two_registers rfl rfl (by rw [memWrite_byte]; rfl)
  case mod => exact exec_of_two_registers rfl rfl (complete_ownFault rfl)
  case add | mul | cmp | and | or | xor | shl | shr => exact exec_of_two_registers rfl rfl rfl

/-- An instruction whose one register operand names a register is well formed (30_encoding.md R74). -/
theorem wellFormed_of_one_register {i : Instr} {r : RegIdx} (h : i.regOperands = [regByte r]) :
    i.wellFormed = true := by
  simp [Instr.wellFormed, h, legalRegister, Config.lastRegister, Nat.le_of_lt_succ r.isLt]

/-- A well-formed instruction has only its own fault (60_exceptions.md R203, item 5). -/
theorem executeFault_of_wellFormed {i : Instr} (h : i.wellFormed = true) (s : State) :
    executeFault s i = ownFault s i := by
  have all_legal : ∀ op ∈ i.regOperands, op.toNat ≤ 7 := fun op hop =>
    of_decide_eq_true (List.all_eq_true.mp h op hop)
  have none_illegal : i.regOperands.find? (fun op => decide (7 < op.toNat)) = none := by simpa using all_legal
  rw [executeFault, none_illegal]

/-- A well-formed instruction without a fault of its own ends as its row of the table says. -/
theorem exec_of_wellFormed {i : Instr} {s : State} (h : i.wellFormed = true) (own : ownFault s i = none) :
    exec i s = .next (completion s i) := by
  rw [exec_eq, executeFault_of_wellFormed h, own]
  rfl

/-! ### What the table's rows read and write -/

/-- Only the rows of ST, PUSH and CALL write memory (20_memory.md R52). -/
theorem completion_mem {i : Instr} (hi : i.parts.1 ∉ [.st, .push, .call]) (s : State) :
    (completion s i).mem = s.mem := by
  cases i
  case st | push | call => simp [Instr.parts] at hi
  all_goals rfl

/-- The events an instruction appends when it completes (10_state.md R35). -/
def events (s : State) : Instr → List OutEvent
  | .prn op1 => [.dec (s.reg (regOf op1))]
  | .pra op1 => [.chr (s.reg (regOf op1))]
  | _ => []

/-- Only PRN and PRA append events (10_state.md R35). -/
theorem mem_parts_of_events_ne_nil {s : State} {i : Instr} (h : events s i ≠ []) : i.parts.1 ∈ [.prn, .pra] := by
  cases i
  case prn | pra => simp [Instr.parts]
  all_goals exact absurd rfl h

/-- A row appends its events to whatever `out` holds and reads nothing of it (10_state.md R35, R39). -/
theorem completion_out (s : State) (i : Instr) (o : List OutEvent) :
    completion { s with out := o } i = { completion s i with out := o ++ events s i } := by
  cases i
  case prn | pra => rfl
  all_goals simp only [events, List.append_nil]; rfl

/-- No row reads `run` or `fault` (10_state.md R39). -/
theorem completion_status (s : State) (i : Instr) (r : Run) (f : Option FaultRecord) :
    { completion { s with run := r, fault := f } i with
      run := (completion s i).run, fault := (completion s i).fault } = completion s i := by
  cases i <;> rfl

/-- The faults of an instruction depend on registers and pc alone (60_exceptions.md R203). -/
theorem executeFault_congr {s t : State} (hx : t.x = s.x) (hpc : t.pc = s.pc) (i : Instr) :
    executeFault t i = executeFault s i := by
  have same_reg : t.reg = s.reg := funext fun r => by rw [State.reg, State.reg, hx]
  have own : ownFault t i = ownFault s i := by
    cases i <;> simp only [ownFault, same_reg, hpc]
  rw [executeFault, executeFault, own]

/-- A completion leaves the fault record as it is (60_exceptions.md R202). -/
theorem completion_fault (s : State) (i : Instr) : (completion s i).fault = s.fault := by
  cases i <;> rfl

/-- A completion does not enter FAULTED: only HLT's writes `run` (40_sequencer.md R109). -/
theorem completion_run_ne_faulted {s : State} (hs : s.run ≠ .faulted) (i : Instr) :
    (completion s i).run ≠ .faulted := by
  cases i
  case hlt => exact Run.noConfusion
  all_goals exact hs

/-! ### The first fault of a step -/

/-- At a legal opcode byte the order goes on with the operand fetches, then the instruction (60_exceptions.md R203). -/
theorem firstFault_legal {s : State} {o : Opcode} (hp : s.pc ≤ 255) (hb : s.mem.read s.pc = o.byte) :
    firstFault s =
      if 1 ≤ operandCount o.byte ∧ 255 < s.pc + 1 then some ⟨.outOfRange, s.pc + 1⟩
      else if operandCount o.byte = 2 ∧ 255 < s.pc + 2 then some ⟨.outOfRange, s.pc + 2⟩
      else executeFault s (o.instr (s.mem.read (s.pc + 1)) (s.mem.read (s.pc + 2))) := by
  rw [firstFault, if_neg (Nat.not_lt.mpr hp), hb, decodeOpcode_byte]

/-- The first operand byte that is missing stands at address 256. -/
theorem firstFault_crosses {s : State} {o : Opcode} (hp : s.pc ≤ 255) (hb : s.mem.read s.pc = o.byte)
    (hc : 255 < s.pc + operandCount o.byte) : firstFault s = some ⟨.outOfRange, 256⟩ := by
  have two := operandCount_byte_le o
  rw [firstFault_legal hp hb]
  by_cases last : s.pc = 255
  · rw [if_pos ⟨by omega, by omega⟩, last]
  · rw [if_neg (by omega), if_pos ⟨by omega, by omega⟩, (by omega : s.pc = 254)]

/-- An instruction that lies below address 256 has only the faults of its execution. -/
theorem firstFault_fits {s : State} {o : Opcode} (hb : s.mem.read s.pc = o.byte)
    (hc : s.pc + operandCount o.byte ≤ 255) :
    firstFault s = executeFault s (o.instr (s.mem.read (s.pc + 1)) (s.mem.read (s.pc + 2))) := by
  rw [firstFault_legal (by omega) hb, if_neg (by omega), if_neg (by omega)]

/-- At an illegal opcode byte the first fault is the decode error (60_exceptions.md R203, item 2). -/
theorem firstFault_illegal {s : State} {e : OpcodeError} (hp : s.pc ≤ 255)
    (illegal : decodeOpcode (s.mem.read s.pc) = .error e) :
    firstFault s = some (illegalOpcodeRecord (s.mem.read s.pc) e) := by
  rw [firstFault, if_neg (Nat.not_lt.mpr hp), illegal]
  cases e <;> rfl

/-- A running core's step raises the first fault of the spec's order, or completes an instruction with none
(60_exceptions.md R203). -/
theorem step_eq_firstFault {s : State} (hrun : s.run = .running) :
    (∃ f, firstFault s = some f ∧ step s = .next (s.raiseFault f)) ∨
    (firstFault s = none ∧ ∃ i, step s = .next (completion s i)) := by
  rcases fetchDecode_cases s with ⟨hp, fetched⟩ | ⟨hp, e, illegal, fetched⟩ | ⟨hp, o, hb, hc, fetched⟩ |
    ⟨hp, o, hb, hc, fetched⟩
  · exact .inl ⟨_, if_pos hp, step_of_fetchDecode_error hrun fetched⟩
  · exact .inl ⟨_, firstFault_illegal hp illegal, step_of_fetchDecode_error hrun fetched⟩
  · exact .inl ⟨_, firstFault_crosses hp hb hc, step_of_fetchDecode_error hrun fetched⟩
  · rw [step_of_fetchDecode_ok hrun fetched, exec_eq, firstFault_fits hb hc]
    cases executeFault s (o.instr (s.mem.read (s.pc + 1)) (s.mem.read (s.pc + 2))) with
    | some f => exact .inl ⟨f, rfl, rfl⟩
    | none => exact .inr ⟨rfl, _, rfl⟩

/-! ### The obligations -/

/-- Settles O9: a fault writes no memory, and of the table's rows only those of ST, PUSH and CALL do. -/
theorem onlyStPushCallWriteMemory : Obligations.OnlyStPushCallWriteMemory := by
  unfold Obligations.OnlyStPushCallWriteMemory
  intro i s t h hi
  have kept : t.mem = s.mem := by
    cases (exec_eq i s).symm.trans h
    cases executeFault s i with
    | none => exact completion_mem hi s
    | some f => rfl
  exact ⟨kept, fun a => by rw [kept]⟩

/-- Settles O13: neither the faults of an instruction nor its row of the table read these components, and a row only
appends its events. -/
theorem outRunAndFaultAreNeverRead : Obligations.OutRunAndFaultAreNeverRead := by
  unfold Obligations.OutRunAndFaultAreNeverRead
  intro i s
  have same_fault {u : State} (hx : u.x = s.x) (hpc : u.pc = s.pc) :
      exec i u = .next (conclude u i (executeFault s i)) := by rw [exec_eq, executeFault_congr hx hpc]
  cases found : executeFault s i with
  | none =>
    simp only [found] at same_fault
    refine ⟨completion s i, events s i, same_fault rfl rfl, mem_parts_of_events_ne_nil, fun o => ?_, fun r f => ?_⟩
    · exact (same_fault (u := { s with out := o }) rfl rfl).trans (congrArg Host.Outcome.next (completion_out s i o))
    · exact ⟨_, same_fault rfl rfl, completion_status s i r f⟩
  | some g =>
    simp only [found] at same_fault
    refine ⟨s.raiseFault g, [], same_fault rfl rfl, fun h => absurd rfl h, fun o => ?_, fun r f => ?_⟩
    · rw [List.append_nil]; exact same_fault rfl rfl
    · exact ⟨_, same_fault rfl rfl, rfl⟩

/-- Settles O26: the spec's list is the order in which a step checks, and no completion enters FAULTED. -/
theorem stepReportsTheFirstFaultInOrder : Obligations.StepReportsTheFirstFaultInOrder := by
  unfold Obligations.StepReportsTheFirstFaultInOrder
  intro s hrun
  rcases step_eq_firstFault hrun with ⟨g, found, raised⟩ | ⟨found, i, completed⟩ <;> rw [found]
  · exact ⟨fun f hf => Option.some.inj hf ▸ raised, fun hf => by cases hf⟩
  · exact ⟨fun f hf => (by cases hf), fun _ => ⟨_, completed, completion_run_ne_faulted (by simp [hrun]) i,
      completion_fault s i⟩⟩

end Sys2Proof.Machine
end

section
/-! PROOFS. The invariant and pc (10_state.md R25, R27, R34, 40_sequencer.md R105): the reset state meets the invariant, every
step keeps it, and an OutOfRange record comes from a fetch, at address 256. -/

namespace Sys2Proof.Machine

/-! ### The invariant over one step -/

/-- A comparison leaves FL a legal value (10_state.md R28). -/
theorem compareFlags_legal (u v : Byte) : compareFlags u v ∈ [0x00#8, 0x01#8, 0x02#8, 0x04#8] :=
  (by decide : [0x04#8, 0x02#8, 0x01#8] ⊆ [0x00#8, 0x01#8, 0x02#8, 0x04#8]) (compareFlags_mem u v)

/-- A running core that meets the invariant holds no fault record (10_state.md R34). -/
theorem Inv.fault_eq_none {s : State} (h : Inv s) (hrun : s.run = .running) : s.fault = none := by
  have none_recorded : ¬ s.fault.isSome = true := by simp [h.fault_iff, hrun]
  simpa using none_recorded

/-- Entering FAULTED writes both `run` and `fault`, so it keeps the invariant (60_exceptions.md R204). -/
theorem Inv.raiseFault {s : State} (h : Inv s) (f : FaultRecord) : Inv (s.raiseFault f) :=
  ⟨h.pc_le, h.fl_legal, h.mem_wf, by simp⟩

/-- Entering HALTED without a fault record keeps the invariant. -/
theorem Inv.halt {s : State} (h : Inv s) (hrun : s.run = .running) : Inv { s with run := .halted } :=
  ⟨h.pc_le, h.fl_legal, h.mem_wf, by simp [h.fault_eq_none hrun]⟩

/-- A completed instruction that was fetched below address 256 leaves pc at most 256 (10_state.md R25). -/
theorem Completes.advance_pc_le {i : Instr} {s u : State} (hu : Completes i s u)
    (fits : s.pc + operandCount i.opcodeByte ≤ 255) : (u.advance i.opcodeByte).pc ≤ Config.pcMax := by
  have max : Config.pcMax = 256 := rfl
  rw [State.advance_pc]
  split
  · next bit => rcases hu.pc_set bit with h | ⟨h, count⟩ <;> omega
  · next bit => rw [hu.pc_keep (by simpa using bit)]; omega

/-- A completed instruction that was fetched below address 256 keeps the invariant. -/
theorem Inv.advance {i : Instr} {s u : State} (h : Inv s) (hu : Completes i s u)
    (fits : s.pc + operandCount i.opcodeByte ≤ 255) : Inv (u.advance i.opcodeByte) where
  pc_le := hu.advance_pc_le fits
  fl_legal := by
    rw [State.advance_fl]
    rcases hu.fl with kept | ⟨-, v, w, compared⟩
    · rw [kept]; exact h.fl_legal
    · rw [compared]; exact compareFlags_legal v w
  mem_wf := by rw [State.advance_mem]; exact hu.mem_wf h.mem_wf
  fault_iff := by rw [State.advance_fault, State.advance_run, hu.fault, hu.run]; exact h.fault_iff

/-! ### OutOfRange -/

/-- Executing an instruction leaves no OutOfRange record that was not there before (20_memory.md R53). -/
theorem exec_fault_ne_outOfRange {i : Instr} {s t : State} (hs : s.fault = none) (h : exec i s = .next t) (a : Nat) :
    t.fault ≠ some ⟨.outOfRange, a⟩ := by
  rcases exec_cases i s with ⟨f, raised, code⟩ | ⟨-, halted⟩ | ⟨-, u, completed, hu⟩
  · cases raised.symm.trans h
    intro hf
    cases hf
    simp at code
  · cases halted.symm.trans h
    simp [hs]
  · cases completed.symm.trans h
    simp [hu.fault, hs]

/-- From a pc of at most 256, a fetch that fails with OutOfRange fails at address 256 (60_exceptions.md R201). -/
theorem fetchDecode_outOfRange {s : State} {a : Nat} (hp : s.pc ≤ 256)
    (h : fetchDecode s = .error ⟨.outOfRange, a⟩) : a = 256 := by
  rcases fetchDecode_cases s with ⟨hp', fetched⟩ | ⟨-, e, -, fetched⟩ | ⟨-, o, -, -, fetched⟩ | ⟨-, o, -, -, fetched⟩
  · cases fetched.symm.trans h
    omega
  · cases e <;> cases fetched.symm.trans h
  · cases fetched.symm.trans h
    rfl
  · cases fetched.symm.trans h

/-! ### The obligations -/

/-- Settles O17: no flag, address 0, no memory cell and no fault record. -/
theorem resetMeetsTheInvariant : Obligations.ResetMeetsTheInvariant :=
  ⟨Nat.zero_le _, by decide, State.reset_mem_wf, by decide⟩

/-- Settles O18: a fault and HLT leave all but `run` and `fault`; a completion moves pc by the length of an instruction that
lies below address 256 or to a byte, writes FL by a comparison only, and writes memory in canonical form. -/
theorem everyStepKeepsTheInvariant : Obligations.EveryStepKeepsTheInvariant := by
  unfold Obligations.EveryStepKeepsTheInvariant
  intro s t inv h
  obtain ⟨running, ⟨i, fetched, executed⟩ | ⟨f, -, rfl⟩⟩ := step_cases h
  · rcases exec_cases i s with ⟨f, raised, -⟩ | ⟨-, halted⟩ | ⟨-, u, completed, hu⟩
    · cases raised.symm.trans executed
      exact inv.raiseFault f
    · cases halted.symm.trans executed
      exact inv.halt running
    · cases completed.symm.trans executed
      exact inv.advance hu (fetchDecode_eq_ok fetched).2
  · exact inv.raiseFault f

/-- Settles O10: every address of a data access is a byte, so execution never raises OutOfRange. -/
theorem dataAccessesNeverLeaveTheAddressSpace : Obligations.DataAccessesNeverLeaveTheAddressSpace := by
  unfold Obligations.DataAccessesNeverLeaveTheAddressSpace
  intro i s hs
  obtain ⟨t, h⟩ := exec_next i s
  exact ⟨t, h, exec_fault_ne_outOfRange hs h⟩

/-- Settles O24: without the sets-PC bit a completion leaves pc to the advance; HLT and a fault have none. -/
theorem pcAdvancesUnlessTheSetsPcBitIsSet : Obligations.PcAdvancesUnlessTheSetsPcBitIsSet := by
  unfold Obligations.PcAdvancesUnlessTheSetsPcBitIsSet
  intro i s t hrun h
  rcases exec_cases i s with ⟨f, raised, -⟩ | ⟨-, halted⟩ | ⟨-, u, completed, hu⟩
  · cases raised.symm.trans h
    exact ⟨nofun, fun _ => rfl⟩
  · cases halted.symm.trans h
    exact ⟨nofun, fun _ => rfl⟩
  · cases completed.symm.trans h
    refine ⟨fun _ bit => ?_, fun stopped => absurd (by rw [State.advance_run, hu.run, hrun]) stopped⟩
    have no_set : setsPcBit i.opcodeByte = false := bit
    rw [State.advance_pc, no_set, hu.pc_keep no_set]
    rfl

/-- Settles O27: only a fetch records OutOfRange, at pc or at the first operand byte past address 255. -/
theorem outOfRangeAlwaysRecordsAddress256 : Obligations.OutOfRangeAlwaysRecordsAddress256 := by
  unfold Obligations.OutOfRangeAlwaysRecordsAddress256
  intro s t inv h a recorded
  obtain ⟨running, ⟨i, -, executed⟩ | ⟨f, failed, rfl⟩⟩ := step_cases h
  · exact absurd recorded (exec_fault_ne_outOfRange (inv.fault_eq_none running) executed a)
  · cases recorded
    exact fetchDecode_outOfRange inv.pc_le failed

end Sys2Proof.Machine
end

section
/-! PROOFS. MOD, CMP, JEQ, the large shift amounts, and arithmetic under a two's complement reading (41_alu.md R125, R132,
R133, 43_control_transfer.md R171). -/

namespace Sys2Proof.Machine

/-! ### MOD -/

/-- MOD on legal registers with a divisor that is not 0 writes the remainder (41_alu.md R132). -/
theorem exec_mod_legal {a b : RegIdx} {s : State} (h : s.reg b ≠ 0) :
    exec (.mod (regByte a) (regByte b)) s =
      .next { s with x := s.x.set a (aluMod (s.reg a) (s.reg b)), pc := s.pc + 3 } := by
  simp only [exec, execMod, reg_regByte, except_ok_bind, if_neg h, complete_ok]
  rw [State.advance_of_not_setsPc _ (ir := Opcode.mod.byte) (by decide)]
  rfl

/-- MOD on legal registers with divisor 0 raises DivideByZero with its opcode byte (41_alu.md R132). -/
theorem exec_mod_zero {a b : RegIdx} {s : State} (h : s.reg b = 0) :
    exec (.mod (regByte a) (regByte b)) s = .next (s.raiseFault ⟨.divideByZero, 0xA4⟩) := by
  simp only [exec, execMod, reg_regByte, except_ok_bind, if_pos h, complete_error]
  rfl

/-- A remainder of a byte is a byte, so the narrowing to 8 bits loses nothing (41_alu.md R132). -/
theorem aluMod_toNat (u v : Byte) : (aluMod u v).toNat = u.toNat % v.toNat :=
  (trunc8_toNat _).trans (Nat.mod_eq_of_lt ((Nat.mod_le _ _).trans_lt u.isLt))

/-! ### CMP -/

theorem compareFlags_of_lt {u v : Byte} (h : u.toNat < v.toNat) : compareFlags u v = 0b00000100#8 := if_pos h

theorem compareFlags_of_gt {u v : Byte} (h : v.toNat < u.toNat) : compareFlags u v = 0b00000010#8 := by
  rw [compareFlags, if_neg (by omega), if_pos h]

theorem compareFlags_self (u : Byte) : compareFlags u u = 0b00000001#8 := by
  rw [compareFlags, if_neg (by omega), if_neg (by omega)]

/-! ### Shift amounts of 8 or more -/

/-- Shifted left by 8 or more, a byte is a multiple of 256 (41_alu.md R133, log 26). -/
theorem aluShl_eq_zero {v : Byte} (h : 8 ≤ v.toNat) (u : Byte) : aluShl u v = 0 := by
  apply BitVec.eq_of_toNat_eq
  have multiple : 256 ∣ u.toNat * 2 ^ v.toNat := Dvd.dvd.mul_left (pow_dvd_pow 2 h) _
  rw [aluShl_toNat, Nat.mod_eq_zero_of_dvd multiple]
  rfl

/-- Shifted right by 8 or more, a byte is below the power it is divided by (41_alu.md R133, log 26). -/
theorem aluShr_eq_zero {v : Byte} (h : 8 ≤ v.toNat) (u : Byte) : aluShr u v = 0 := by
  apply BitVec.eq_of_toNat_eq
  have below : u.toNat < 2 ^ v.toNat := u.isLt.trans_le (Nat.pow_le_pow_right (by decide) h)
  rw [aluShr_toNat, Nat.div_eq_of_lt below]
  rfl

/-! ### The two's complement reading -/

/-- ADD's byte is the sum of the signed readings, narrowed (41_alu.md R133). -/
theorem aluAdd_eq_ofInt (u v : Byte) : aluAdd u v = BitVec.ofInt 8 (u.toInt + v.toInt) := by
  rw [BitVec.ofInt_add, BitVec.ofInt_toInt, BitVec.ofInt_toInt]
  exact BitVec.eq_of_toNat_eq ((aluAdd_toNat u v).trans (BitVec.toNat_add u v).symm)

theorem aluMul_eq_ofInt (u v : Byte) : aluMul u v = BitVec.ofInt 8 (u.toInt * v.toInt) := by
  rw [BitVec.ofInt_mul, BitVec.ofInt_toInt, BitVec.ofInt_toInt]
  exact BitVec.eq_of_toNat_eq ((aluMul_toNat u v).trans (BitVec.toNat_mul u v).symm)

theorem aluInc_eq_ofInt (u : Byte) : aluInc u = BitVec.ofInt 8 (u.toInt + 1) :=
  aluAdd_eq_ofInt u 1

/-- DEC adds 255, which reads as -1 (41_alu.md R124, R133). -/
theorem aluDec_eq_ofInt (u : Byte) : aluDec u = BitVec.ofInt 8 (u.toInt - 1) :=
  aluAdd_eq_ofInt u 255

/-- The complement of a byte reads as -1 minus it (41_alu.md R129, R133). -/
theorem aluNot_eq_ofInt (u : Byte) : aluNot u = BitVec.ofInt 8 (-1 - u.toInt) := by
  rw [aluNot_eq_not, Int.sub_eq_add_neg, BitVec.ofInt_add, BitVec.ofInt_neg (n := u.toInt), BitVec.ofInt_toInt,
    ← BitVec.allOnes_sub_eq_not, BitVec.sub_eq_add_neg]
  rfl

/-! ### The obligations -/

/-- Settles O32: a divisor of 0 is checked after both registers and before the write. -/
theorem modIsTheRemainderOrAFault : Obligations.ModIsTheRemainderOrAFault :=
  ⟨decode_of_operandCount_eq_two (o := .mod) rfl,
    fun _ _ _ => ⟨fun h => ⟨_, aluMod_toNat _ _, exec_mod_legal h⟩, exec_mod_zero⟩,
    checksBothRegisters_of_exec_eq fun _ _ _ => rfl⟩

/-- Settles O33: CMP writes the comparison of its registers, which is one flag by the unsigned order. -/
theorem cmpSetsOneFlagByUnsignedOrder : Obligations.CmpSetsOneFlagByUnsignedOrder := by
  refine ⟨decode_of_operandCount_eq_two (o := .cmp) rfl, fun a b s => ?_,
    checksBothRegisters_of_exec_eq fun _ _ _ => rfl⟩
  refine ⟨_, exec_cmp_legal a b s, compareFlags_of_lt, compareFlags_of_gt, fun equal => ?_⟩
  rw [equal, compareFlags_self]

/-- Settles O40: every bit of a byte is shifted out. -/
theorem shiftsByEightOrMoreGiveZero : Obligations.ShiftsByEightOrMoreGiveZero := by
  unfold Obligations.ShiftsByEightOrMoreGiveZero
  intro a b s h
  have shl := BinaryAlu.shl.exec_legal a b s
  have shr := BinaryAlu.shr.exec_legal a b s
  rw [aluShl_eq_zero h] at shl
  rw [aluShr_eq_zero h] at shr
  exact ⟨shl, shr⟩

/-- Settles O41: narrowing commutes with sums, products and negation, so both readings of a byte give one result. -/
theorem arithmeticIsTheSameUnderSignedReading : Obligations.ArithmeticIsTheSameUnderSignedReading := by
  unfold Obligations.ArithmeticIsTheSameUnderSignedReading
  intro a b s
  simp only [← aluAdd_eq_ofInt, ← aluMul_eq_ofInt, ← aluInc_eq_ofInt, ← aluDec_eq_ofInt, ← aluNot_eq_ofInt]
  exact ⟨BinaryAlu.add.exec_legal a b s, BinaryAlu.mul.exec_legal a b s, UnaryAlu.inc.exec_legal a s,
    UnaryAlu.dec.exec_legal a s, UnaryAlu.not.exec_legal a s⟩

/-- Settles O52: JEQ is the jump on E set, and it checks its register before it reads E. -/
theorem jeqJumpsWhenEqual : Obligations.JeqJumpsWhenEqual :=
  ⟨decode_of_operandCount_eq_one (o := .jeq) rfl,
    fun a _ => ⟨jumpIf_taken (ir := Opcode.jeq.byte) (cond := condEqual) (by decide) a,
      jumpIf_not_taken (ir := Opcode.jeq.byte) (cond := condEqual) (by decide) a⟩,
    checksRegister_of_exec_eq fun _ _ => rfl⟩

end Sys2Proof.Machine
end

section
/-! PROOFS. The stack and stores into code (42_data_movement.md R153, R154, R158, 43_control_transfer.md R174, R177, 20_memory.md
R62): PUSH, POP and CALL on a legal register, that SP comes back to where it was, and an ST that the next fetch sees. -/

namespace Sys2Proof.Machine

/-! ### The registers and SP -/

/-- Writing a register with what it holds changes nothing. -/
theorem State.setReg_reg_self (s : State) (r : RegIdx) : s.setReg r (s.reg r) = s := by
  simp [State.setReg, State.reg]

/-- One above one below SP is SP, modulo 256 (42_data_movement.md R158). -/
theorem State.succ_sp_decSp (s : State) : trunc8 (s.decSp.sp.toNat + 1) = s.sp := by
  apply BitVec.eq_of_toNat_eq
  have := s.sp.isLt
  simp only [State.sp_decSp, trunc8_toNat]
  omega

/-- SP moved down and up again is back where it was. -/
theorem State.incSp_decSp (s : State) : s.decSp.incSp = s := by
  rw [State.incSp, State.succ_sp_decSp, State.decSp, State.setReg, State.setReg, Vector.set_set]
  exact s.setReg_reg_self spIndex

/-- A register after SP was moved down: R7 is the new SP, the others are as before. -/
theorem State.reg_decSp (s : State) (r : RegIdx) :
    s.decSp.reg r = if r = 7 then trunc8 (s.sp.toNat + 255) else s.reg r :=
  s.reg_setReg spIndex _ r

/-- The push address is the new SP (20_memory.md R52). -/
theorem pushAddress_eq_toNat (s : State) : pushAddress s = (trunc8 (s.sp.toNat + 255)).toNat :=
  congrArg BitVec.toNat s.sp_decSp

/-! ### PUSH, POP and CALL on a legal register -/

/-- PUSH stores the register as it is after SP moved down (42_data_movement.md R153). -/
theorem exec_push_legal (a : RegIdx) (s : State) :
    exec (.push (regByte a)) s =
      .next { s with x := s.decSp.x, mem := s.mem.write (pushAddress s) (s.decSp.reg a), pc := s.pc + 2 } := by
  rw [exec_of_wellFormed (wellFormed_of_one_register rfl) rfl, completion,
    regOf_regByte]

/-- POP moves SP up after the register was written (42_data_movement.md R154). -/
theorem exec_pop_legal (a : RegIdx) (s : State) :
    exec (.pop (regByte a)) s =
      .next { s with x := (s.setReg a (s.mem.read s.sp.toNat)).incSp.x, pc := s.pc + 2 } := by
  rw [exec_of_wellFormed (wellFormed_of_one_register rfl) rfl, completion,
    regOf_regByte]

/-- CALL with a return address that is a byte pushes it and jumps to the register as it is then (43_control_transfer.md R174). -/
theorem exec_call_legal (a : RegIdx) {s : State} (h : s.pc + 2 ≤ 255) :
    exec (.call (regByte a)) s = .next { s with
      x := s.decSp.x
      mem := s.mem.write (pushAddress s) (trunc8 (s.pc + 2))
      pc := (s.decSp.reg a).toNat } := by
  rw [exec_of_wellFormed (wellFormed_of_one_register rfl)
    (by rw [ownFault, if_neg (Nat.not_lt.mpr h)]), completion, regOf_regByte]

/-- CALL with a return address above 255 is a fault (43_control_transfer.md R174). -/
theorem exec_call_overflow (a : RegIdx) {s : State} (h : 255 < s.pc + 2) :
    exec (.call (regByte a)) s = .next (s.raiseFault ⟨.callReturnOverflow, s.pc + 2⟩) := by
  rw [exec_eq, executeFault_of_wellFormed (wellFormed_of_one_register rfl),
    ownFault, if_pos h]
  rfl

/-- POP of the register just pushed restores every register, if SP and the byte at SP are as PUSH left them. -/
theorem exec_pop_after_push {a : RegIdx} {s t : State} (hx : t.x = s.decSp.x)
    (pushed : t.mem.read s.decSp.sp.toNat = s.decSp.reg a) :
    exec (.pop (regByte a)) t = .next { t with x := s.x, pc := t.pc + 2 } := by
  have same_reg (r : RegIdx) : t.reg r = s.decSp.reg r := by rw [State.reg, State.reg, hx]
  have popped : t.mem.read t.sp.toNat = t.reg a := by rw [State.sp, same_reg, same_reg]; exact pushed
  have restored : t.incSp.x = s.x := by
    rw [State.incSp_x, State.sp, same_reg, hx]
    exact congrArg State.x s.incSp_decSp
  rw [exec_pop_legal, popped, State.setReg_reg_self, restored]

/-! ### The obligations -/

/-- Settles O45: the push address is the new SP, and the store reads the register after SP moved. -/
theorem pushStoresBelowTheStackPointer : Obligations.PushStoresBelowTheStackPointer := by
  refine ⟨decode_of_operandCount_eq_one (o := .push) rfl, fun a s => ?_, checksRegister_of_exec_eq fun _ _ => rfl⟩
  refine ⟨_, _, exec_push_legal a s, trunc8_toNat _, pushAddress_eq_toNat s, ?_, fun c hc => ?_⟩
  · rw [Memory.read_write_self, State.reg_decSp]
  · exact s.mem.read_write_ne _ _ hc

/-- Settles O46: SP moves up after the register was written, so for R7 it moves up from the byte read. -/
theorem popLoadsAtTheStackPointer : Obligations.PopLoadsAtTheStackPointer := by
  refine ⟨decode_of_operandCount_eq_one (o := .pop) rfl, fun a s => ?_, checksRegister_of_exec_eq fun _ _ => rfl⟩
  refine ⟨_, _, exec_pop_legal a s, rfl, fun ha => ?_, fun ha => ?_⟩
  · rw [trunc8_toNat, State.sp, spIndex_eq, State.reg_setReg_ne _ _ _ (Ne.symm ha)]
  · rw [trunc8_toNat, ha, State.sp, spIndex_eq, State.reg_setReg_self]

/-- Settles O49: the byte POP reads is the one PUSH stored, which is what the register holds; SP moves down and up. -/
theorem pushThenPopRestoresRegisters : Obligations.PushThenPopRestoresRegisters := by
  unfold Obligations.PushThenPopRestoresRegisters
  intro a s
  exact ⟨_, _, exec_push_legal a s, exec_pop_after_push rfl (Memory.read_write_self _ _ _), rfl⟩

/-- Settles O55: the return address is checked before the push, and the target is read after it. -/
theorem callPushesTheReturnAddress : Obligations.CallPushesTheReturnAddress := by
  refine ⟨decode_of_operandCount_eq_one (o := .call) rfl, fun a s => ⟨fun h => ?_, exec_call_overflow a⟩,
    checksRegister_of_exec_eq fun _ _ => rfl⟩
  refine ⟨_, s.mem.write (pushAddress s) (trunc8 (s.pc + 2)), ?_, trunc8_toNat _, pushAddress_eq_toNat s, ?_,
    fun c hc => s.mem.read_write_ne _ _ hc⟩
  · rw [exec_call_legal a h, State.reg_decSp]
    rfl
  · rw [Memory.read_write_self, trunc8_toNat]
    omega

/-- Settles O57: RET reads the byte CALL stored at the new SP, and moves SP up again. -/
theorem retReturnsAfterTheCall : Obligations.RetReturnsAfterTheCall := by
  unfold Obligations.RetReturnsAfterTheCall
  refine fun a s h => ⟨_, exec_call_legal a h, fun u same_sp same_byte => ⟨_, exec_ret u, ?_, ?_⟩⟩
  · rw [same_sp, same_byte]
    exact (congrArg BitVec.toNat (Memory.read_write_self _ _ _)).trans ((trunc8_toNat _).trans (by omega))
  · refine (State.reg_setReg_self u 7 _).trans ?_
    rw [same_sp]
    exact s.succ_sp_decSp

/-- Settles O50: fetch reads memory as it stands, so the step after a store decodes what the store left at pc. -/
theorem storeIntoCodeIsSeenByTheNextFetch : Obligations.StoreIntoCodeIsSeenByTheNextFetch := by
  unfold Obligations.StoreIntoCodeIsSeenByTheNextFetch
  intro s a b hrun hpc hop h1 h2
  have fetched : fetchDecode s = .ok (.st (regByte a) (regByte b)) := by
    rw [fetchDecode_fits (o := .st) hop (Nat.add_le_add_right hpc 2), h1, h2]
    rfl
  refine ⟨s.mem.write (s.reg a).toNat (s.reg b), _, rfl, ?_, s.mem.read_write_self _ _,
    fun c hc => s.mem.read_write_ne _ _ hc, fun o hbyte fits => ?_⟩
  · rw [step_of_fetchDecode_ok hrun fetched, exec_st_legal]
  · exact step_of_fetchDecode_ok hrun (fetchDecode_fits hbyte fits)

end Sys2Proof.Machine
end
